-- ==== Sys2Proof/Word.lean ====
section
/-!
DEFINITION. The machine's words: the 64-bit decimal word (10_state.md R33), the byte of BUF (20_memory.md R61),
and the 32-bit port value (10_state.md R32).
-/
namespace Sys2Proof

/-- One decimal64 word, the block's only data type (R33). -/
abbrev Word := BitVec 64

/-- One byte of BUF (R61). -/
abbrev Byte := BitVec 8

/-- A 32-bit port value: CMD, OPN, ADDR or LEN (R32). -/
abbrev Half := BitVec 32

end Sys2Proof
end

