-- ==== Sys2Proof/Config.lean ====
section
/-!
DEFINITION. What the implementation fixes (00_scope.md R7) and the free values. The two constants without a body
cannot be evaluated or proved to have any value: a statement about them holds for every value.
-/
namespace Sys2Proof.Config

/-- Significant digits of a canonical value (R7, PRECISION). -/
def precision : Nat := 16

/-- The largest mantissa of a finite canonical word, 10^16 − 1 (R7). -/
def maxMantissa : Int := 9999999999999999

/-- The mantissa of +Infinity, 2^54 − 1 (R7). -/
def infMantissa : Int := 18014398509481983

/-- The least exponent of a finite word (R7). -/
def minExponent : Int := -255

/-- The greatest exponent of a finite word (R7). -/
def maxExponent : Int := 255

/-- The exponent of the three sentinels (R7). -/
def specialExponent : Int := -256

/-- WS_SET: the bytes the parser trims, at the default R222 gives (log 11). -/
def whiteSpace : List Byte := [0x09#8, 0x0A#8, 0x0B#8, 0x0C#8, 0x0D#8, 0x20#8]

/-- BUF_SIZE, the OPEN parameter of R61, within its bound 2^32: what `State.reset` carries (log 3). -/
opaque bufSize : Fin 4294967297

/-- A FREE VALUE: the byte the spec's `n`th draw gives ("any value", 93_implementation_defined.md; log 8). -/
opaque freeByte : Nat → Byte

end Sys2Proof.Config
end

