-- ==== Sys2Proof/Syntax.lean ====
section
/-!
DEFINITION. The commands of DEC64 command set 1: one constructor per row of spec/opcode_table.json
(30_encoding.md R83). A command word carries no operands (R81), so no constructor has an argument.
-/
namespace Sys2Proof

/-- The twenty commands of R83, in the table's order. -/
inductive Instr where
  | pack
  | unpackM
  | unpackE
  | isFinite
  | fromParts
  | validate
  | validateFinite
  | add
  | sub
  | neg
  | abs
  | mul
  | div
  | round
  | cmp
  | min
  | max
  | eq
  | parse
  | format
  deriving DecidableEq, Repr

/-- The eight units of R1, numbered by R82. -/
inductive FunctionalUnit where
  | normalizer
  | adder
  | multiplier
  | divider
  | rounder
  | comparator
  | textParser
  | textFormatter
  deriving DecidableEq, Repr

/-- The input ports of 10_state.md R32. -/
inductive PortName where
  | cmd
  | opa
  | opb
  | opn
  | addr
  | len
  deriving DecidableEq, Repr

/-- The result registers that can hold no value (10_state.md R40, R42). -/
inductive ResultName where
  | result
  | rlen
  | eaddr
  | elen
  deriving DecidableEq, Repr

end Sys2Proof
end

