-- ==== Sys2Proof/Machine/State.lean ====
section
/-!
DEFINITION. The state of the block and of the host that drives it, as plain data, and the state after reset.
A port or register that "holds no value" (10_state.md R45) is `none`: that is the spec's own state, left by reset
(R49) and written by completions (60_exceptions.md R304), never a missing reset value (log 1).
-/
namespace Sys2Proof.Machine

open Sys2Proof

/-- The input ports of R32; `none` is a port that holds no value (R45, R49). -/
structure Ports where
  cmd : Option Half
  opa : Option Word
  opb : Option Word
  opn : Option Half
  addr : Option Half
  len : Option Half
  deriving DecidableEq, Repr

/-- No port holds a value. -/
def Ports.undriven : Ports :=
  { cmd := none, opa := none, opb := none, opn := none, addr := none, len := none }

/-- The values that the block latches at issue (60_exceptions.md R300). Each is a plain register that always holds a value:
only a port can hold none (log 14). -/
structure Latches where
  cmd : Half
  opa : Word
  opb : Word
  opn : Half
  addr : Half
  len : Half
  deriving DecidableEq, Repr

/-- The latches after reset, where the spec gives them no value (log 14). -/
def Latches.cleared : Latches := { cmd := 0#32, opa := 0#64, opb := 0#64, opn := 0#32, addr := 0#32, len := 0#32 }

/-- One interaction of the host with the block (60_exceptions.md R301), or a reset (70_reset_and_hazards.md R340). -/
inductive HostEvent where
  | driveOpa (v : Word)
  | driveOpb (v : Word)
  | driveOpn (v : Half)
  | driveAddr (v : Half)
  | driveLen (v : Half)
  /-- Write CMD; `latency` is the LATENCY of the issued command, an unconstrained finite number of steps (log 2). -/
  | issue (cmd : Half) (latency : Nat)
  /-- Poll BUSY until it is 0. -/
  | await
  | readResult
  | readRlen
  | readStatus
  | readEaddr
  | readElen
  | readBusy
  | writeBuf (a : Half) (v : Byte)
  | readBuf (a : Half)
  /-- Reset is applied. -/
  | reset
  deriving DecidableEq, Repr

/-- What one host read gave back (60_exceptions.md R301). -/
inductive Reading where
  | result (v : Word)
  | rlen (v : Half)
  | status (v : Byte)
  | eaddr (v : Half)
  | elen (v : Half)
  | busy (v : Bool)
  | buf (a : Half) (v : Byte)
  deriving DecidableEq, Repr

structure State where
  /-- The input ports (10_state.md R32). -/
  ports : Ports
  /-- What the block latched at issue: CMD and every port the command reads (60_exceptions.md R300). -/
  latched : Latches
  /-- RESULT (10_state.md R40). -/
  result : Option Word
  /-- RLEN (10_state.md R40). -/
  rlen : Option Half
  /-- STATUS (10_state.md R41). -/
  status : Byte
  /-- EADDR (10_state.md R42). -/
  eaddr : Option Half
  /-- ELEN (10_state.md R42). -/
  elen : Option Half
  /-- BUSY (10_state.md R43). -/
  busy : Bool
  /-- What is left of the LATENCY of the command in progress (70_reset_and_hazards.md R346; log 2). -/
  wait : Nat
  /-- BUF (20_memory.md R61): the bytes that hold a value, addresses strictly rising. -/
  mem : List Host.Cell
  /-- BUF_SIZE (20_memory.md R61): a parameter, changed by no step (log 3). -/
  bufSize : Fin 4294967297
  /-- Addresses of the region of the command in progress that the host has written meanwhile (20_memory.md R71). -/
  raced : List Nat
  /-- The model's own: how many free bytes have been drawn (log 8). -/
  draws : Nat
  /-- The model's own: what the host will do, first thing first (log 4). -/
  agenda : List HostEvent
  /-- The model's own: what the host's reads gave back, newest first (log 4). -/
  seen : List Reading
  deriving DecidableEq, Repr

/-- The model faults of 60_exceptions.md R307 and one of the model's own. A fault stops the run. -/
inductive Fault where
  /-- Raised by every command of 40_normalizer.md R106 on a word operand that is not canonical. Safe: the spec gives
  no result. -/
  | nonCanonicalOperand (w : Word)
  /-- Raised by the issue of a command that reads a port the host has not driven, and nowhere else: no command's
  completion raises it. The spec names this fault: 10_state.md R32, R45, 60_exceptions.md R306, R307, 92_eei_decisions.md
  D22 (that it comes at the issue: log 12). Safe. -/
  | unwrittenPort (p : PortName)
  /-- Raised by a host read of RESULT, RLEN, EADDR or ELEN while it holds no value. The spec names this fault: 10_state.md
  R45, 60_exceptions.md R304, R307, 92_eei_decisions.md D6, D22. Safe. -/
  | unwrittenRegister (r : ResultName)
  /-- Raised by PARSE on a byte of BUF nothing has written (20_memory.md R64). Safe. -/
  | unwrittenBuffer (a : Nat)
  /-- Raised by a host write of CMD while BUSY = 1 (60_exceptions.md R301). Safe. -/
  | issueWhileBusy
  /-- Raised by a host access to an address that BUF does not have (20_memory.md R67; log 13). Safe. -/
  | outsideBuffer (a : Nat)
  deriving DecidableEq, Repr

/-- No command is refused by its meaning; the one constructor is the reserved name for an instruction without one. -/
inductive Refusal where
  /-- Raised by no arm of `exec` as it stands: every command has its meaning. Safe. -/
  | notModelled (mnemonic : String)
  deriving DecidableEq, Repr

/-- The block right after reset (10_state.md R49), BUF as at power-on with no byte written (20_memory.md R64), and a
host that has nothing to do (log 4). -/
def State.reset : State :=
  { ports := Ports.undriven, latched := Latches.cleared, result := none, rlen := none, status := 0x00#8, eaddr := none,
    elen := none, busy := false, wait := 0, mem := [], bufSize := Config.bufSize, raced := [], draws := 0,
    agenda := [], seen := [] }

end Sys2Proof.Machine
end

