-- ==== Sys2Proof/Machine/Flags.lean ====
section
/-!
DEFINITION. STATUS, the only flags of the block (10_state.md R41, R46), and the completion codes of
60_exceptions.md R302.
-/
namespace Sys2Proof.Machine

open Sys2Proof

/-- The completion codes of R302. Codes 6..15 are reserved and never written. -/
inductive Code where
  | ok
  | formatError
  | typeError
  | invalidValue
  | boundsError
  | illegalCommand
  deriving DecidableEq, Repr

/-- The number of a completion code (R302). -/
def Code.number (c : Code) : BitVec 4 :=
  match c with
  | .ok => 0#4
  | .formatError => 1#4
  | .typeError => 2#4
  | .invalidValue => 3#4
  | .boundsError => 4#4
  | .illegalCommand => 5#4

/-- VALID of a completion: 1 exactly when CODE is OK (10_state.md R41). -/
def Code.valid (c : Code) : BitVec 1 := if c = .ok then 1#1 else 0#1

/-- The STATUS byte of a completion: VALID in bit 7, 0 in bits 6..4, CODE in bits 3..0 (10_state.md R41). -/
def statusByte (c : Code) : Byte := (c.valid ++ 0#3 ++ c.number : BitVec 8)

/-- STATUS.CODE (10_state.md R41). -/
def statusCode (st : Byte) : BitVec 4 := st.extractLsb' 0 4

/-- The reserved bits STATUS[6:4] (10_state.md R41). -/
def statusReserved (st : Byte) : BitVec 3 := st.extractLsb' 4 3

/-- STATUS.VALID (10_state.md R41). -/
def statusValid (st : Byte) : Bool := st.getLsbD 7

end Sys2Proof.Machine
end

