-- ==== Sys2Proof/WellFormed.lean ====
section
/-!
DEFINITION. Which field values of a command word are well formed (30_encoding.md R80, R82, R85). The command syntax
itself has no arguments, so the checks are on the word's fields RSV, UNIT and FUNC.
-/
namespace Sys2Proof

/-- The fields of a command word, decoded as R81 says. -/
structure CommandFields where
  rsv : BitVec 24
  unit : BitVec 4
  func : BitVec 4
  deriving DecidableEq, Repr

/-- How many functions of each unit number R83 assigns, FUNC 0 upward; a reserved unit has none. -/
def funcCount (unit : Nat) : Nat :=
  match unit with
  | 0 => 7
  | 1 => 4
  | 2 => 1
  | 3 => 1
  | 4 => 1
  | 5 => 4
  | 6 => 1
  | 7 => 1
  | _ => 0

/-- RSV must be 0 (R80). -/
def CommandFields.rsvOk (f : CommandFields) : Bool := f.rsv == 0#24

/-- UNIT 8..15 is reserved (R82). -/
def CommandFields.unitOk (f : CommandFields) : Bool := decide (f.unit.toNat < 8)

/-- (UNIT, FUNC) must be a row of R83. -/
def CommandFields.funcOk (f : CommandFields) : Bool := decide (f.func.toNat < funcCount f.unit.toNat)

/-- A command word's fields are well formed when it is not illegal in the sense of R85. -/
def CommandFields.wf (f : CommandFields) : Bool := f.rsvOk && f.unitOk && f.funcOk

end Sys2Proof
end

