-- ==== Sys2Proof/Decode.lean ====
section
/-!
DEFINITION. The decoder of command words, total on all 32-bit words and rejecting by name (30_encoding.md R80 to
R86), and after it the encoder, written from the unit and function numbers of R82 and R83.
-/
namespace Sys2Proof

/-- The fields of R80 read as R81 says. -/
def fieldsOf (w : BitVec 32) : CommandFields :=
  { rsv := w.extractLsb' 8 24, unit := w.extractLsb' 4 4, func := w.extractLsb' 0 4 }

/-- Why a command word is illegal (R85). All three complete with ILLEGAL_COMMAND. -/
inductive DecodeError where
  /-- RSV ≠ 0. -/
  | reservedBits
  /-- UNIT is 8..15. -/
  | reservedUnit
  /-- (UNIT, FUNC) is no row of R83. -/
  | unassignedFunction
  deriving DecidableEq, Repr

/-- The opcode map of R83: the match value's low byte and the command. -/
def opcodeMap : List (BitVec 8 × Instr) :=
  [ (0x00#8, .pack), (0x01#8, .unpackM), (0x02#8, .unpackE), (0x03#8, .isFinite), (0x04#8, .fromParts),
    (0x05#8, .validate), (0x06#8, .validateFinite),
    (0x10#8, .add), (0x11#8, .sub), (0x12#8, .neg), (0x13#8, .abs),
    (0x20#8, .mul),
    (0x30#8, .div),
    (0x40#8, .round),
    (0x50#8, .cmp), (0x51#8, .min), (0x52#8, .max), (0x53#8, .eq),
    (0x60#8, .parse),
    (0x70#8, .format) ]

/-- The first row of a list of rows whose opcode is `op`. -/
def findOpcode (op : BitVec 8) : List (BitVec 8 × Instr) → Option Instr
  | [] => none
  | (o, i) :: rest => if o = op then some i else findOpcode op rest

/-- R85's decode: the command a word selects, or why it is illegal. -/
def decode (w : BitVec 32) : Except DecodeError Instr :=
  if (fieldsOf w).rsvOk = false then .error .reservedBits
  else if (fieldsOf w).unitOk = false then .error .reservedUnit
  else
    match findOpcode (w.extractLsb' 0 8) opcodeMap with
    | some i => .ok i
    | none => .error .unassignedFunction

/-- The unit that executes a command (R82, R83). -/
def Instr.unit (i : Instr) : FunctionalUnit :=
  match i with
  | .pack | .unpackM | .unpackE | .isFinite | .fromParts | .validate | .validateFinite => .normalizer
  | .add | .sub | .neg | .abs => .adder
  | .mul => .multiplier
  | .div => .divider
  | .round => .rounder
  | .cmp | .min | .max | .eq => .comparator
  | .parse => .textParser
  | .format => .textFormatter

/-- The unit numbers of R82. -/
def FunctionalUnit.number (u : FunctionalUnit) : BitVec 4 :=
  match u with
  | .normalizer => 0#4
  | .adder => 1#4
  | .multiplier => 2#4
  | .divider => 3#4
  | .rounder => 4#4
  | .comparator => 5#4
  | .textParser => 6#4
  | .textFormatter => 7#4

/-- The FUNC field of a command (R83). -/
def Instr.func (i : Instr) : BitVec 4 :=
  match i with
  | .pack | .add | .mul | .div | .round | .cmp | .parse | .format => 0#4
  | .unpackM | .sub | .min => 1#4
  | .unpackE | .neg | .max => 2#4
  | .isFinite | .abs | .eq => 3#4
  | .fromParts => 4#4
  | .validate => 5#4
  | .validateFinite => 6#4

/-- The command word of a command: RSV = 0, then UNIT, then FUNC (R80). -/
def encode (i : Instr) : BitVec 32 := (0#24 ++ i.unit.number ++ i.func : BitVec 32)

/-- What the decoder reads from an instruction of `nbits` bits, the bits above them 0. A command word is 32 bits
on the CMD port, whole and in parallel (20_memory.md R65), so there is one word and no byte order. -/
def decodeTableWord (nbits w : Nat) : Option Instr :=
  if w % 2 ^ nbits < 2 ^ 32 then
    match decode (BitVec.ofNat 32 (w % 2 ^ nbits)) with
    | .ok i => some i
    | .error _ => none
  else none

end Sys2Proof
end

