-- ==== Sys2Proof/Machine/Numeric.lean ====
section
/-!
DEFINITION. The numeric primitives of 00_scope.md R11 to R16 on integers, exact rationals in decimal scientific form,
and the normalization function `canon` of 40_normalizer.md R100. All arithmetic is exact (R8; log 5).
-/
namespace Sys2Proof.Machine

open Sys2Proof

/-- Number of base-10 digits of `n`, given at least `n` steps. -/
def digitsAux : Nat → Nat → Nat
  | 0, _ => 1
  | fuel + 1, n => if n < 10 then 1 else digitsAux fuel (n / 10) + 1

/-- `digits` of R12: the number of base-10 digits of |m|, with `digits 0 = 1`. -/
def digits (m : Int) : Nat := digitsAux m.natAbs m.natAbs

/-- `sign` of R15. -/
def sign (x : Int) : Int := if x < 0 then -1 else if x = 0 then 0 else 1

/-- `sameSign(a, b)` of R15: both negative or both non-negative, so zero counts as non-negative. -/
def sameSign (a b : Int) : Bool := !(decide (a < 0) ^^ decide (b < 0))

/-- `roundHE(n / d)` of R11: the integer nearest to the quotient, ties to the even one. -/
def roundHE (n : Int) (d : Nat) : Int :=
  if 2 * (n % (d : Int)) > d then n / (d : Int) + 1
  else if 2 * (n % (d : Int)) < d then n / (d : Int)
  else if (n / (d : Int)) % 2 = 0 then n / (d : Int) else n / (d : Int) + 1

/-- Removes at most `fuel` trailing zeros. -/
def stripAux : Nat → Int → Int → Int × Int
  | 0, m, e => (m, e)
  | fuel + 1, m, e => if m % 10 = 0 then stripAux fuel (m / 10) (e - 1) else (m, e)

/-- `strip` of R14. -/
def strip (m e : Int) : Int × Int := if m = 0 then (0, 0) else stripAux (digits m) m e

/-- An exact rational in scientific form: `num / den × 10^(−scale)`. The collaborator's exact results (R8) and the
operands' values (10_state.md R36) have this form without a huge power of ten being written out (log 5). -/
structure Exact where
  num : Int
  den : Nat
  scale : Int
  deriving DecidableEq, Repr

/-- The value `m × 10^(−e)` of R10. -/
def Exact.ofParts (m e : Int) : Exact := { num := m, den := 1, scale := e }

/-- The exact sum, over the larger of the two scales. -/
def Exact.add (x y : Exact) : Exact :=
  { num := x.num * y.den * 10 ^ (y.scale - x.scale).toNat + y.num * x.den * 10 ^ (x.scale - y.scale).toNat,
    den := x.den * y.den, scale := max x.scale y.scale }

/-- The exact product. -/
def Exact.mul (x y : Exact) : Exact :=
  { num := x.num * y.num, den := x.den * y.den, scale := x.scale + y.scale }

/-- The exact quotient; the divisor is not 0. -/
def Exact.div (x y : Exact) : Exact :=
  { num := x.num * y.den * sign y.num, den := x.den * y.num.natAbs, scale := x.scale - y.scale }

/-- `n × 10^k / d` rounded half-even, for an integer `k` of either sign. -/
def roundScaled (n : Int) (d : Nat) (k : Int) : Int :=
  if 0 ≤ k then roundHE (n * 10 ^ k.toNat) d else roundHE n (d * 10 ^ (-k).toNat)

/-- The integer `k` with 10^k ≤ a / d < 10^(k+1), for positive `a` and `d`. -/
def magnitude (a d : Nat) : Int :=
  if d * 10 ^ (digits a - digits d) ≤ a * 10 ^ (digits d - digits a) then (digits a : Int) - digits d
  else (digits a : Int) - digits d - 1

/-- `pack(m, e)` of 10_state.md R38: `m[54:0]` above `e[8:0]`, with no validation. -/
def pack (m e : Int) : Word := (BitVec.ofInt 55 m ++ BitVec.ofInt 9 e : BitVec (55 + 9))

/-- NaN (10_state.md R34). -/
def nan : Word := 0x0000000000000100#64
/-- +Infinity (10_state.md R34). -/
def pinf : Word := 0x7FFFFFFFFFFFFF00#64
/-- −Infinity (10_state.md R34). -/
def ninf : Word := 0x8000000000000300#64
/-- The canonical zero (10_state.md R34). -/
def zero : Word := 0x0000000000000000#64
/-- The value one (10_state.md R34). -/
def one : Word := 0x0000000000000200#64

/-- The infinity whose sign is the XOR of the signs of two nonzero mantissas (42_multiplier.md R160, 43_divider.md R170):
the spec's `sign(m) * sign(n) > 0` is `sameSign` there. -/
def signedInfinity (m n : Int) : Word := if sameSign m n then pinf else ninf

/-- The underflow branch of R100: `m` with exponent `e` above 255 loses its lowest `e − 255` digits. -/
def underflow (m e : Int) : Word :=
  if (digits m : Int) ≤ e - Config.maxExponent then zero
  else
    let r := strip (roundHE m (10 ^ (e - Config.maxExponent).toNat)) Config.maxExponent
    pack r.1 r.2

/-- The steps of R100 after the rounding to 16 digits and the stripping. -/
def saturate (m e : Int) : Word :=
  if e < Config.minExponent then (if 0 < m then pinf else ninf)
  else if Config.maxExponent < e then underflow m e
  else pack m e

/-- `Canon(x)` of R100. With 10^k ≤ |num/den| < 10^(k+1) the position of `x` is `p = k − scale`, and `q = 15 − p`. -/
def canon (x : Exact) : Word :=
  if x.num = 0 then zero
  else
    let k := magnitude x.num.natAbs x.den
    let r := strip (roundScaled x.num x.den (15 - k)) (15 - k + x.scale)
    saturate r.1 r.2

end Sys2Proof.Machine
end

