-- ==== Sys2Proof/Machine/Operands.lean ====
section
/-!
DEFINITION. The operand forms: the fields of a decimal64 word and which words are canonical (10_state.md R33 to R39),
the integers read from ports (30_encoding.md R84), and which ports each command reads (30_encoding.md R83).
-/
namespace Sys2Proof.Machine

open Sys2Proof

/-- `mant(w)`: bits 63..9 as a 55-bit two's-complement integer (R33). -/
def mant (w : Word) : Int := (w.extractLsb' 9 55).toInt

/-- `expo(w)`: bits 8..0 as a 9-bit two's-complement integer (R33). -/
def expo (w : Word) : Int := (w.extractLsb' 0 9).toInt

/-- `is_finite(w)`: the raw EXP field is not 0x100 (R39). -/
def isFiniteWord (w : Word) : Bool := w.extractLsb' 0 9 != 0x100#9

/-- One of the three sentinels of R34. -/
def isSentinel (w : Word) : Bool := w == nan || w == pinf || w == ninf

/-- Case 3 of R35: a nonzero mantissa in range with no trailing zero, and an exponent in −255..255. -/
def canonicalNonzero (w : Word) : Bool :=
  decide (Config.minExponent ≤ expo w) && decide (expo w ≤ Config.maxExponent) && decide (mant w ≠ 0)
    && decide ((mant w).natAbs ≤ Config.maxMantissa.natAbs) && decide (mant w % 10 ≠ 0)

/-- A canonical word (R35): a sentinel, ZERO, or case 3. -/
def canonical (w : Word) : Bool := isSentinel w || w == zero || canonicalNonzero w

/-- `val(w)` of R36 as an exact rational. -/
def val (w : Word) : Exact := Exact.ofParts (mant w) (expo w)

/-- A 64-bit port value as a signed integer, `s64` (30_encoding.md R84). -/
def signed64 (w : Word) : Int := w.toInt

/-- A 32-bit port value as a signed integer, `sext_32` (30_encoding.md R84). -/
def signed32 (v : Half) : Int := v.toInt

/-- A 32-bit port value as an unsigned integer, `zext_32` (30_encoding.md R84). -/
def unsigned32 (v : Half) : Nat := v.toNat

/-- The 64-bit pattern of an integer, `u64` (00_scope.md §5). -/
def word64 (x : Int) : Word := BitVec.ofInt 64 x

/-- The ports column of 30_encoding.md R83, in its order. -/
def portsRead (i : Instr) : List PortName :=
  match i with
  | .pack | .fromParts | .round => [.opa, .opn]
  | .unpackM | .unpackE | .isFinite | .validate | .validateFinite | .neg | .abs => [.opa]
  | .add | .sub | .mul | .div | .cmp | .min | .max | .eq => [.opa, .opb]
  | .parse => [.addr, .len]
  | .format => [.opa, .addr, .len]

end Sys2Proof.Machine
end

