-- ==== Sys2Proof/Machine/Ops.lean ====
section
/-!
DEFINITION. The named operations over BUF, the latched operands and the result registers: bytes and regions of BUF
(20_memory.md), free bytes, operand admission, and the one completion that every command ends with
(60_exceptions.md R304), successful or with an error.
-/
namespace Sys2Proof.Machine

open Sys2Proof

/-- What a step or a command answers. -/
abbrev Answer := Host.Outcome State Fault Refusal

/-! ## BUF -/

/-- A byte of BUF; `none` where nothing has written it (20_memory.md R64). -/
def memRead : List Host.Cell → Nat → Option Byte
  | [], _ => none
  | (b, v) :: rest, a => if a = b then some v else memRead rest a

/-- Writes one byte, keeping the addresses strictly rising (20_memory.md R67, MemWrite). -/
def memWrite : List Host.Cell → Nat → Byte → List Host.Cell
  | [], a, v => [(a, v)]
  | (b, u) :: rest, a, v =>
    if a < b then (a, v) :: (b, u) :: rest
    else if a = b then (a, v) :: rest
    else (b, u) :: memWrite rest a v

/-- Writes the bytes of a text at ascending addresses (20_memory.md R65). -/
def memWriteText : List Host.Cell → Nat → List Byte → List Host.Cell
  | mem, _, [] => mem
  | mem, a, v :: rest => memWriteText (memWrite mem a v) (a + 1) rest

/-- Writes the `d`th and following free bytes over the `n` bytes at `a` (a draw for each; log 8). -/
def memDrawRegion : List Host.Cell → Nat → Nat → Nat → List Host.Cell
  | mem, _, 0, _ => mem
  | mem, a, n + 1, d => memDrawRegion (memWrite mem a (Config.freeByte d)) (a + 1) n (d + 1)

/-- Writes the `d`th and following free bytes at the listed addresses (a draw for each; log 7). -/
def memDrawList : List Host.Cell → List Nat → Nat → List Host.Cell
  | mem, [], _ => mem
  | mem, a :: rest, d => memDrawList (memWrite mem a (Config.freeByte d)) rest (d + 1)

/-- The canonical form of BUF: addresses strictly rising and below `bound`. Every listed byte holds a value, and an
unlisted one holds none, so no entry equals what an unlisted address reads as. -/
def memWfFrom : Nat → Nat → List Host.Cell → Bool
  | _, _, [] => true
  | lo, bound, (a, _) :: rest => decide (lo ≤ a) && decide (a < bound) && memWfFrom (a + 1) bound rest

/-- The canonical form of BUF with `bound` bytes. -/
def Memory.wf (bound : Nat) (mem : List Host.Cell) : Bool := memWfFrom 0 bound mem

/-- What PARSE reads of its region (20_memory.md R64, R70, R71): the bytes from `a` on and the number of draws after
them, or the first address that holds no value. A byte the host has written meanwhile reads as a free byte. -/
def readRegion (mem : List Host.Cell) (raced : List Nat) : Nat → Nat → Nat → Except Nat (List Byte × Nat)
  | _, 0, d => .ok ([], d)
  | a, n + 1, d =>
    if a ∈ raced then
      match readRegion mem raced (a + 1) n (d + 1) with
      | .ok (t, d') => .ok (Config.freeByte d :: t, d')
      | .error b => .error b
    else
      match memRead mem a with
      | none => .error a
      | some v =>
        match readRegion mem raced (a + 1) n d with
        | .ok (t, d') => .ok (v :: t, d')
        | .error b => .error b

/-- `check_region` of 20_memory.md R63: the exact sum is at most BUF_SIZE. -/
def regionInside (s : State) (addr len : Half) : Bool :=
  decide (unsigned32 addr + unsigned32 len ≤ s.bufSize.val)

/-! ## Operands -/

/-- Operand admission, `admit(w)` of 40_normalizer.md R106. -/
def requireCanonical (w : Word) (k : Answer) : Answer :=
  if canonical w then k else .fault (.nonCanonicalOperand w)

/-! ## Completion -/

/-- THE COMPLETION (60_exceptions.md R300, R304): STATUS from the code, the four result registers each with a value or
none, BUSY 0. The latches stay, and nothing reads them before the next issue. -/
def State.finish (s : State) (c : Code) (result : Option Word) (rlen eaddr elen : Option Half) : State :=
  { s with status := statusByte c, result := result, rlen := rlen, eaddr := eaddr, elen := elen, busy := false,
           raced := [] }

/-- Completion OK of any command but FORMAT: RESULT holds the result (R304). -/
def succeed (s : State) (w : Word) : Answer := .next (s.finish .ok (some w) none none none)

/-- `raise <CODE>()`: completion with an error and no value anywhere (R304). It is the shared operation of this
hardware's exceptions: no control transfer, no saved state, no handler (R308, R309). -/
def raise (s : State) (c : Code) : Answer := .next (s.finish c none none none none)

/-- `raise FORMAT_ERROR(ADDR, LEN)`: EADDR and ELEN hold the region (46_text_parser.md R231). -/
def raiseFormatError (s : State) (addr len : Half) : Answer :=
  .next (s.finish .formatError none none (some addr) (some len))

/-- Completion OK of FORMAT: RLEN holds the byte count (R304). -/
def succeedFormat (s : State) (n : Nat) : Answer :=
  .next (s.finish .ok none (some (BitVec.ofNat 32 n)) none none)

/-- A command on one admitted word operand that always completes OK with `f a` (40_normalizer.md R106). -/
def unaryWord (s : State) (f : Word → Word) : Answer :=
  requireCanonical s.latched.opa (succeed s (f s.latched.opa))

/-- A command on two admitted word operands, OPA checked first, that always completes OK with `f a b`
(40_normalizer.md R106, 60_exceptions.md R306). -/
def binaryWord (s : State) (f : Word → Word → Word) : Answer :=
  requireCanonical s.latched.opa
    (requireCanonical s.latched.opb (succeed s (f s.latched.opa s.latched.opb)))

/-- The bytes of a FORMAT's region that the host has written meanwhile become free bytes (20_memory.md R71; log 7). -/
def State.settleRaces (s : State) : State :=
  { s with mem := memDrawList s.mem s.raced s.draws, draws := s.draws + s.raced.length }

end Sys2Proof.Machine
end

