-- ==== Sys2Proof/Machine/Adder.lean ====
section
/-!
DEFINITION. Unit 1, the adder: ADD, SUB, NEG, ABS (41_adder.md R140 to R145).
-/
namespace Sys2Proof.Machine

open Sys2Proof

/-- The non-finite table of add (R140), its rows in order. -/
def addNonfinite (a b : Word) : Word :=
  if a = nan ∨ b = nan then nan
  else if isFiniteWord a = false ∧ isFiniteWord b = false then (if a = b then a else nan)
  else if isFiniteWord a = false then a else b

/-- The sum of two canonical words (R142): the table when a sentinel is involved, else Canon of the exact sum (R141). -/
def addWords (a b : Word) : Word :=
  if isFiniteWord a && isFiniteWord b then canon ((val a).add (val b)) else addNonfinite a b

/-- The negation of a word: a sign flip of the mantissa field only (R144). -/
def negWord (a : Word) : Word := pack (-mant a) (expo a)

/-- The absolute value of a word (R145). -/
def absWord (a : Word) : Word := pack (mant a).natAbs (expo a)

/-- ADD (R142). -/
def execAdd (s : State) : Answer := binaryWord s addWords

/-- SUB (R143): the addition of the negation; `b` is admitted before it is negated. -/
def execSub (s : State) : Answer := binaryWord s fun a b => addWords a (negWord b)

/-- NEG (R144). -/
def execNeg (s : State) : Answer := unaryWord s negWord

/-- ABS (R145). -/
def execAbs (s : State) : Answer := unaryWord s absWord

end Sys2Proof.Machine
end

