-- ==== Sys2Proof/Machine/Comparator.lean ====
section
/-!
DEFINITION. Unit 5, the comparator: CMP, MIN, MAX, EQ (45_comparator.md R190 to R195).
-/
namespace Sys2Proof.Machine

open Sys2Proof

/-- The non-finite table of compare (R190): NaN greatest, else the raw signed-word comparison. -/
def cmpNonfinite (a b : Word) : Int :=
  if a = nan ∧ b = nan then 0
  else if a = nan then 1
  else if b = nan then -1
  else sign (signed64 a - signed64 b)

/-- The exact order of two finite words (R191): both mantissas scaled to the larger exponent. -/
def cmpFinite (a b : Word) : Int :=
  sign (mant a * 10 ^ (expo b - expo a).toNat - mant b * 10 ^ (expo a - expo b).toNat)

/-- `compare(a, b)` of R192: −1, 0 or 1. -/
def compareWords (a b : Word) : Int :=
  if isFiniteWord a && isFiniteWord b then cmpFinite a b else cmpNonfinite a b

/-- CMP (R192). -/
def execCmp (s : State) : Answer := binaryWord s fun a b => word64 (compareWords a b)

/-- MIN (R193). -/
def execMin (s : State) : Answer := binaryWord s fun a b => if compareWords a b ≤ 0 then a else b

/-- MAX (R194). -/
def execMax (s : State) : Answer := binaryWord s fun a b => if 0 ≤ compareWords a b then a else b

/-- EQ (R195). -/
def execEq (s : State) : Answer := binaryWord s fun a b => word64 (if compareWords a b = 0 then 1 else 0)

end Sys2Proof.Machine
end

