-- ==== Sys2Proof/Machine/Divider.lean ====
section
/-!
DEFINITION. Unit 3, the divider: DIV (43_divider.md R170 to R172).
-/
namespace Sys2Proof.Machine

open Sys2Proof

/-- The rows of R170 in order, for operands of which one is a sentinel or ZERO. The last row is for an infinite
dividend and a finite nonzero divisor. -/
def divSpecial (a b : Word) : Word :=
  if a = nan ∨ b = nan ∨ b = zero then nan
  else if a = zero then zero
  else if isFiniteWord a = false ∧ isFiniteWord b = false then nan
  else if isFiniteWord b = false then zero
  else signedInfinity (mant a) (mant b)

/-- The quotient of two canonical words (R172): the special rows, else Canon of the exact quotient (R171). -/
def divWords (a b : Word) : Word :=
  if isFiniteWord a = false ∨ isFiniteWord b = false ∨ a = zero ∨ b = zero then divSpecial a b
  else canon ((val a).div (val b))

/-- DIV (R172). Division by zero gives NaN and is no error. -/
def execDiv (s : State) : Answer := binaryWord s divWords

end Sys2Proof.Machine
end

