-- ==== Sys2Proof/Machine/Parser.lean ====
section
/-!
DEFINITION. Unit 6, the text parser: PARSE (46_text_parser.md R220 to R231). A text is its list of bytes, one ASCII
character a byte.
-/
namespace Sys2Proof.Machine

open Sys2Proof

/-- A digit byte, 0x30..0x39 (R221). -/
def isDigitByte (b : Byte) : Bool := decide (0x30 ≤ b.toNat) && decide (b.toNat ≤ 0x39)

/-- The number a digit byte stands for. -/
def digitValue (b : Byte) : Nat := b.toNat - 0x30

/-- A byte of WS_SET (R222). -/
def isSpaceByte (b : Byte) : Bool := Config.whiteSpace.contains b

/-- Trimming (R222): the longest prefix and the longest suffix of WS_SET bytes are removed. -/
def trim (t : List Byte) : List Byte :=
  (List.dropWhile isSpaceByte (List.dropWhile isSpaceByte t).reverse).reverse

/-- `NaN` (R223). -/
def nanText : List Byte := [0x4E#8, 0x61#8, 0x4E#8]
/-- `+Infinity` (R223). -/
def pinfText : List Byte := [0x2B#8, 0x49#8, 0x6E#8, 0x66#8, 0x69#8, 0x6E#8, 0x69#8, 0x74#8, 0x79#8]
/-- `-Infinity` (R223). -/
def ninfText : List Byte := [0x2D#8, 0x49#8, 0x6E#8, 0x66#8, 0x69#8, 0x6E#8, 0x69#8, 0x74#8, 0x79#8]

/-- The special literals, exact case (R223). -/
def specialLiteral (t : List Byte) : Option Word :=
  if t = nanText then some nan
  else if t = pinfText then some pinf
  else if t = ninfText then some ninf
  else none

/-- The integer a list of digit bytes spells, continuing `acc`; leading zeros carry no value (R225). -/
def digitsValue (acc : Nat) (ds : List Byte) : Nat := ds.foldl (fun n b => 10 * n + digitValue b) acc

/-- An optional sign (R224): whether it is `-`, and the rest. -/
def takeSign (t : List Byte) : Bool × List Byte :=
  match t with
  | [] => (false, [])
  | b :: rest => if b = 0x2D#8 then (true, rest) else if b = 0x2B#8 then (false, rest) else (false, b :: rest)

/-- The longest run of digits, and the rest. -/
def takeDigits : List Byte → List Byte × List Byte
  | [] => ([], [])
  | b :: rest => if isDigitByte b then (b :: (takeDigits rest).1, (takeDigits rest).2) else ([], b :: rest)

/-- An optional point and the digits after it (R224), and the rest. -/
def takeFraction (t : List Byte) : List Byte × List Byte :=
  match t with
  | [] => ([], [])
  | b :: rest => if b = 0x2E#8 then takeDigits rest else ([], b :: rest)

/-- The rest of a text after its significand, as an exponent part to its end (R224, R226): the exponent (0 when there
is none), or `none` when the text is invalid. `frac` is the number of fraction digits. -/
def takeExponent (frac : Nat) (t : List Byte) : Option Int :=
  match t with
  | [] => some 0
  | b :: rest =>
    if b = 0x65#8 ∨ b = 0x45#8 then
      let sg := takeSign rest
      let ds := takeDigits sg.2
      if ds.1 = [] ∨ ds.2 ≠ [] then none
      else
        let x : Int := if sg.1 then -(digitsValue 0 ds.1 : Int) else (digitsValue 0 ds.1 : Int)
        if -2147483647 ≤ x ∧ x ≤ 2147483647 ∧ -2147483648 ≤ (frac : Int) - x ∧ (frac : Int) - x ≤ 2147483647 then
          some x
        else none
    else none

/-- The exact value of a text that matches `number` (R224, R225), or `none` for an invalid text (R226, R228). -/
def numberValue (t : List Byte) : Option Exact :=
  let sg := takeSign t
  let ip := takeDigits sg.2
  let fr := takeFraction ip.2
  if ip.1 = [] ∧ fr.1 = [] then none
  else
    match takeExponent fr.1.length fr.2 with
    | none => none
    | some x =>
      let m : Int := digitsValue (digitsValue 0 ip.1) fr.1
      some (Exact.ofParts (if sg.1 then -m else m) ((fr.1.length : Int) - x))

/-- The word a whole text spells, or `none` for an invalid text (R222 to R228). -/
def parseText (t : List Byte) : Option Word :=
  match specialLiteral (trim t) with
  | some w => some w
  | none =>
    match numberValue (trim t) with
    | some x => some (canon x)
    | none => none

/-- PARSE (R230). -/
def execParse (s : State) : Answer :=
  if regionInside s s.latched.addr s.latched.len then
    match readRegion s.mem s.raced (unsigned32 s.latched.addr) (unsigned32 s.latched.len) s.draws with
    | .error a => .fault (.unwrittenBuffer a)
    | .ok (t, d) =>
      match parseText t with
      | some w => succeed { s with draws := d } w
      | none => raiseFormatError { s with draws := d } s.latched.addr s.latched.len
  else raise s .boundsError

end Sys2Proof.Machine
end

