-- ==== Sys2Proof/Machine/Formatter.lean ====
section
/-!
DEFINITION. Unit 7, the text formatter: FORMAT (47_text_formatter.md R250 to R257).
-/
namespace Sys2Proof.Machine

open Sys2Proof

/-- The ASCII byte of a digit below 10 (46_text_parser.md R221). -/
def digitByte (n : Nat) : Byte := BitVec.ofNat 8 (0x30 + n)

/-- The ASCII digits of `n`, most significant first, given at least `n` steps. -/
def digitBytesAux : Nat → Nat → List Byte
  | 0, n => [digitByte n]
  | fuel + 1, n => if n < 10 then [digitByte n] else digitBytesAux fuel (n / 10) ++ [digitByte (n % 10)]

/-- `d[0] .. d[D−1]`: the ASCII digits of a mantissa's magnitude, most significant first. -/
def digitBytes (n : Nat) : List Byte := digitBytesAux n n

/-- The text of a magnitude with an exponent (R251 to R254). -/
def magnitudeText (n : Nat) (e : Int) : List Byte :=
  let ds := digitBytes n
  if e ≤ 0 then ds ++ List.replicate (-e).toNat 0x30#8
  else if e.toNat < ds.length then ds.take (ds.length - e.toNat) ++ [0x2E#8] ++ ds.drop (ds.length - e.toNat)
  else [0x30#8, 0x2E#8] ++ List.replicate (e.toNat - ds.length) 0x30#8 ++ ds

/-- `text(w)` of R250 to R254. -/
def text (w : Word) : List Byte :=
  if w = nan then nanText
  else if w = pinf then pinfText
  else if w = ninf then ninfText
  else (if mant w < 0 then [0x2D#8] else []) ++ magnitudeText (mant w).natAbs (expo w)

/-- The bytes of the region of a FORMAT that is too short become free bytes (R257). -/
def State.drawRegion (s : State) (a n : Nat) : State :=
  { s with mem := memDrawRegion s.mem a n s.draws, draws := s.draws + n }

/-- FORMAT (R256). A region shorter than the text is left with any bytes (R257). -/
def execFormat (s : State) : Answer :=
  let t := text s.latched.opa
  let addr := unsigned32 s.latched.addr
  let len := unsigned32 s.latched.len
  requireCanonical s.latched.opa
    (if regionInside s s.latched.addr s.latched.len then
      if t.length ≤ len then succeedFormat (State.settleRaces { s with mem := memWriteText s.mem addr t }) t.length
      else raise (State.settleRaces (State.drawRegion s addr len)) .boundsError
    else raise (State.settleRaces s) .boundsError)

end Sys2Proof.Machine
end

