-- ==== Sys2Proof/Machine/Multiplier.lean ====
section
/-!
DEFINITION. Unit 2, the multiplier: MUL (42_multiplier.md R160 to R162).
-/
namespace Sys2Proof.Machine

open Sys2Proof

/-- The non-finite table of multiply (R160). -/
def mulNonfinite (a b : Word) : Word :=
  if mant a = 0 ∨ mant b = 0 then nan
  else signedInfinity (mant a) (mant b)

/-- The product of two canonical words (R162): the table when a sentinel is involved, else Canon of the exact product
(R161). -/
def mulWords (a b : Word) : Word :=
  if isFiniteWord a && isFiniteWord b then canon ((val a).mul (val b)) else mulNonfinite a b

/-- MUL (R162). -/
def execMul (s : State) : Answer := binaryWord s mulWords

end Sys2Proof.Machine
end

