-- ==== Sys2Proof/Machine/Normalizer.lean ====
section
/-!
DEFINITION. Unit 0, the normalizer's seven commands (40_normalizer.md R110 to R116). All take any 64-bit word.
-/
namespace Sys2Proof.Machine

open Sys2Proof

/-- PACK (R110): RESULT = pack(s64(OPA), sext_32(OPN)), no validation. -/
def execPack (s : State) : Answer :=
  succeed s (pack (signed64 s.latched.opa) (signed32 s.latched.opn))

/-- UNPACK_M (R111): the mantissa field sign-extended to 64 bits. -/
def execUnpackM (s : State) : Answer := succeed s (word64 (mant s.latched.opa))

/-- UNPACK_E (R112): the exponent field sign-extended to 64 bits. -/
def execUnpackE (s : State) : Answer := succeed s (word64 (expo s.latched.opa))

/-- IS_FINITE (R113): 1 when the raw EXP field is not 0x100, else 0. -/
def execIsFinite (s : State) : Answer :=
  succeed s (word64 (if isFiniteWord s.latched.opa then 1 else 0))

/-- FROM_PARTS (R114): Canon(s64(OPA) × 10^(−sext_32(OPN))). -/
def execFromParts (s : State) : Answer :=
  succeed s (canon (Exact.ofParts (signed64 s.latched.opa) (signed32 s.latched.opn)))

/-- VALIDATE (R115): the operand when canonical, else INVALID_VALUE. -/
def execValidate (s : State) : Answer :=
  if canonical s.latched.opa then succeed s s.latched.opa else raise s .invalidValue

/-- VALIDATE_FINITE (R116): the operand when canonical and finite, else INVALID_VALUE. -/
def execValidateFinite (s : State) : Answer :=
  if canonical s.latched.opa && isFiniteWord s.latched.opa then succeed s s.latched.opa else raise s .invalidValue

end Sys2Proof.Machine
end

