-- ==== Sys2Proof/Machine/Rounder.lean ====
section
/-!
DEFINITION. Unit 4, the rounder: ROUND (44_rounder.md R180 to R182).
-/
namespace Sys2Proof.Machine

open Sys2Proof

/-- `roundHE(m / 10^k)`. Where 10^k has more digits than `m`, the quotient is below 1/10 and rounds to 0, which spares
writing out a power of ten of up to 2^31 digits (log 5). -/
def roundPow10 (m : Int) (k : Nat) : Int := if digits m < k then 0 else roundHE m (10 ^ k)

/-- `Canon(roundHE(val(a) × 10^N) × 10^(−N))` of R180, for the mantissa and exponent of `a`. Where `N ≥ expo(a)` the
product is an integer, so nothing is rounded and the argument of Canon is `val(a)` itself (R181). -/
def roundToScale (m e n : Int) : Word :=
  if e ≤ n then canon (Exact.ofParts m e) else canon (Exact.ofParts (roundPow10 m (e - n).toNat) n)

/-- ROUND (R181): TYPE_ERROR for a sentinel (R182). -/
def execRound (s : State) : Answer :=
  let a := s.latched.opa
  requireCanonical a
    (if isFiniteWord a then succeed s (roundToScale (mant a) (expo a) (signed32 s.latched.opn))
     else raise s .typeError)

end Sys2Proof.Machine
end

