-- ==== Sys2Proof/Machine/Dispatch.lean ====
section
/-!
DEFINITION. The completion of each command of 30_encoding.md R83 on the latched operands.
-/
namespace Sys2Proof.Machine

open Sys2Proof

def exec (i : Instr) (s : State) : Host.Outcome State Fault Refusal :=
  match i with
  | .pack => Sys2Proof.Machine.execPack s
  | .unpackM => Sys2Proof.Machine.execUnpackM s
  | .unpackE => Sys2Proof.Machine.execUnpackE s
  | .isFinite => Sys2Proof.Machine.execIsFinite s
  | .fromParts => Sys2Proof.Machine.execFromParts s
  | .validate => Sys2Proof.Machine.execValidate s
  | .validateFinite => Sys2Proof.Machine.execValidateFinite s
  | .add => Sys2Proof.Machine.execAdd s
  | .sub => Sys2Proof.Machine.execSub s
  | .neg => Sys2Proof.Machine.execNeg s
  | .abs => Sys2Proof.Machine.execAbs s
  | .mul => Sys2Proof.Machine.execMul s
  | .div => Sys2Proof.Machine.execDiv s
  | .round => Sys2Proof.Machine.execRound s
  | .cmp => Sys2Proof.Machine.execCmp s
  | .min => Sys2Proof.Machine.execMin s
  | .max => Sys2Proof.Machine.execMax s
  | .eq => Sys2Proof.Machine.execEq s
  | .parse => Sys2Proof.Machine.execParse s
  | .format => Sys2Proof.Machine.execFormat s

end Sys2Proof.Machine
end

