-- ==== Sys2Proof/Machine/HostPort.lean ====
section
/-!
DEFINITION. The block's interface to the host: issue (60_exceptions.md R300), the host's other interactions (R301),
races on BUF (20_memory.md R71) and reset (70_reset_and_hazards.md R340).
-/
namespace Sys2Proof.Machine

open Sys2Proof

/-- Whether a port holds a value. -/
def Ports.holds (p : Ports) (n : PortName) : Bool :=
  match n with
  | .cmd => p.cmd.isSome
  | .opa => p.opa.isSome
  | .opb => p.opb.isSome
  | .opn => p.opn.isSome
  | .addr => p.addr.isSome
  | .len => p.len.isSome

/-- What a latch holds after an issue: its port's value where the command reads the port, else what it held. -/
def sampled {α : Type} (reads : List PortName) (n : PortName) (held : α) (v : Option α) : α :=
  if n ∈ reads then v.getD held else held

/-- The ports a command word's command reads (30_encoding.md R83); an illegal word reads none (R85). -/
def commandReads (cmd : Half) : List PortName :=
  match decode cmd with
  | .ok i => portsRead i
  | .error _ => []

/-- The latches after the issue of `cmd` (60_exceptions.md R300): CMD and the ports its command reads. A port it does
not read is not sampled (30_encoding.md R84). -/
def latchPorts (held : Latches) (p : Ports) (cmd : Half) : Latches :=
  { cmd := cmd,
    opa := sampled (commandReads cmd) .opa held.opa p.opa,
    opb := sampled (commandReads cmd) .opb held.opb p.opb,
    opn := sampled (commandReads cmd) .opn held.opn p.opn,
    addr := sampled (commandReads cmd) .addr held.addr p.addr,
    len := sampled (commandReads cmd) .len held.len p.len }

/-- The state after a command has been issued: CMD driven, the ports latched, BUSY 1 (60_exceptions.md R300). -/
def State.issued (s : State) (cmd : Half) (latency : Nat) : State :=
  { s with ports := { s.ports with cmd := some cmd }, latched := latchPorts s.latched s.ports cmd, busy := true,
           wait := latency, raced := [] }

/-- Issue of a command with BUSY = 0: sampling a port that holds no value is the fault UnwrittenPort (10_state.md R32,
R45; log 12). -/
def issueCommand (s : State) (cmd : Half) (latency : Nat) : Answer :=
  match (commandReads cmd).find? fun n => !s.ports.holds n with
  | some n => .fault (.unwrittenPort n)
  | none => .next (s.issued cmd latency)

/-- The command in progress, when there is one and its word is legal. -/
def State.inProgress (s : State) : Option Instr :=
  if s.busy then
    match decode s.latched.cmd with
    | .ok i => some i
    | .error _ => none
  else none

/-- Whether a BUF address is in the latched region ADDR .. ADDR + LEN − 1. -/
def State.inLatchedRegion (s : State) (a : Nat) : Bool :=
  decide (unsigned32 s.latched.addr ≤ a) && decide (a < unsigned32 s.latched.addr + unsigned32 s.latched.len)

/-- A host write of `a` races with the command in progress (20_memory.md R71): a PARSE or FORMAT whose region it is. -/
def State.writeRaces (s : State) (a : Nat) : Bool :=
  (s.inProgress == some .parse || s.inProgress == some .format) && s.inLatchedRegion a

/-- A host read of `a` races with the command in progress (20_memory.md R71): a FORMAT whose region it is. -/
def State.readRaces (s : State) (a : Nat) : Bool :=
  s.inProgress == some .format && s.inLatchedRegion a

/-- A host write that races: the byte takes any value (20_memory.md R71, 70_reset_and_hazards.md R344), and its address is
remembered, once, for the command's own access to it (log 7). -/
def State.raceWrite (s : State) (a : Nat) : State :=
  { s with mem := memWrite s.mem a (Config.freeByte s.draws), draws := s.draws + 1,
           raced := if a ∈ s.raced then s.raced else a :: s.raced }

/-- A host write of one byte of BUF (20_memory.md R67, R70): the byte written, or any byte when the write races. -/
def hostWriteBuf (s : State) (a : Half) (v : Byte) : Answer :=
  if unsigned32 a < s.bufSize.val then
    if s.writeRaces (unsigned32 a) then .next (s.raceWrite (unsigned32 a))
    else .next { s with mem := memWrite s.mem (unsigned32 a) v }
  else .fault (.outsideBuffer (unsigned32 a))

/-- A host read that gives back a free byte, a new one at each read (log 6). -/
def State.seeFree (s : State) (a : Half) : State :=
  { s with seen := .buf a (Config.freeByte s.draws) :: s.seen, draws := s.draws + 1 }

/-- A host read of one byte of BUF: any value when it races (20_memory.md R71) or when nothing has written the byte. That
such a byte reads as a free value, and that each read draws its own, so that two reads in a row of a byte that holds no
value may differ, are the model's choices (DESIGN CHOICE, log 6). -/
def hostReadBuf (s : State) (a : Half) : Answer :=
  if unsigned32 a < s.bufSize.val then
    if s.readRaces (unsigned32 a) then .next (s.seeFree a)
    else
      match memRead s.mem (unsigned32 a) with
      | some v => .next { s with seen := .buf a v :: s.seen }
      | none => .next (s.seeFree a)
  else .fault (.outsideBuffer (unsigned32 a))

/-- The part of a region that lies in BUF: how many of the `n` bytes at `a` are below `bound`. -/
def clipRegion (bound a n : Nat) : Nat := min n (bound - a)

/-- The region of an abandoned FORMAT is left with any bytes (70_reset_and_hazards.md R340; log 10). -/
def State.abandonFormat (s : State) : State :=
  let n := clipRegion s.bufSize.val (unsigned32 s.latched.addr) (unsigned32 s.latched.len)
  { s with mem := memDrawRegion s.mem (unsigned32 s.latched.addr) n s.draws, draws := s.draws + n }

/-- The registers and ports as reset leaves them (10_state.md R49); BUF, the host and the draws are untouched
(70_reset_and_hazards.md R341). -/
def State.resetRegisters (s : State) : State :=
  { s with ports := Ports.undriven, latched := Latches.cleared, result := none, rlen := none, status := 0x00#8,
           eaddr := none, elen := none, busy := false, wait := 0, raced := [] }

/-- Reset at any time (70_reset_and_hazards.md R340): a command in progress is abandoned. -/
def applyReset (s : State) : State :=
  if s.inProgress = some .format then s.abandonFormat.resetRegisters else s.resetRegisters

/-- A host read of a result register: its value, or the fault UnwrittenRegister while it holds none (10_state.md R45,
60_exceptions.md R304, R307). -/
def hostReadRegister {α : Type} (s : State) (r : ResultName) (v : Option α) (reading : α → Reading) : Answer :=
  match v with
  | some x => .next { s with seen := reading x :: s.seen }
  | none => .fault (.unwrittenRegister r)

/-- The effect of one event of the host on a state whose agenda no longer holds it (60_exceptions.md R301). -/
def hostEvent (ev : HostEvent) (s : State) : Answer :=
  match ev with
  | .driveOpa v => .next { s with ports := { s.ports with opa := some v } }
  | .driveOpb v => .next { s with ports := { s.ports with opb := some v } }
  | .driveOpn v => .next { s with ports := { s.ports with opn := some v } }
  | .driveAddr v => .next { s with ports := { s.ports with addr := some v } }
  | .driveLen v => .next { s with ports := { s.ports with len := some v } }
  | .issue cmd latency => if s.busy then .fault .issueWhileBusy else issueCommand s cmd latency
  | .await => if s.busy then .next { s with agenda := .await :: s.agenda } else .next s
  | .readResult => hostReadRegister s .result s.result .result
  | .readRlen => hostReadRegister s .rlen s.rlen .rlen
  | .readStatus => .next { s with seen := .status s.status :: s.seen }
  | .readEaddr => hostReadRegister s .eaddr s.eaddr .eaddr
  | .readElen => hostReadRegister s .elen s.elen .elen
  | .readBusy => .next { s with seen := .busy s.busy :: s.seen }
  | .writeBuf a v => hostWriteBuf s a v
  | .readBuf a => hostReadBuf s a
  | .reset => .next (applyReset s)

/-- The host's next interaction; with nothing left to do the block and all its state stay as they are
(60_exceptions.md R315). -/
def hostMove (s : State) : Answer :=
  match s.agenda with
  | [] => .next s
  | ev :: rest => hostEvent ev { s with agenda := rest }

/-- A port's value where it holds one, else 0: what `withFetchWord` drives on a port its command reads (log 17). -/
def driveMissing {α : Type} (reads : List PortName) (n : PortName) (zeroValue : α) (v : Option α) : Option α :=
  if n ∈ reads then some (v.getD zeroValue) else v

/-- The ports after the host has driven every port that `cmd` reads and that held no value (log 17). -/
def Ports.drivenFor (p : Ports) (cmd : Half) : Ports :=
  { p with
    opa := driveMissing (commandReads cmd) .opa 0#64 p.opa,
    opb := driveMissing (commandReads cmd) .opb 0#64 p.opb,
    opn := driveMissing (commandReads cmd) .opn 0#32 p.opn,
    addr := driveMissing (commandReads cmd) .addr 0#32 p.addr,
    len := driveMissing (commandReads cmd) .len 0#32 p.len }

end Sys2Proof.Machine
end

