-- ==== Sys2Proof/Machine/Step.lean ====
section
/-!
DEFINITION. One step of the machine: the block completes the command in progress when its LATENCY has passed, else the
host makes its next move (60_exceptions.md R300, R301). There is no program counter (10_state.md R31): a command comes
from the latched CMD.
-/
namespace Sys2Proof.Machine

open Sys2Proof

/-- `complete()` of R300: decode the latched CMD and run the command's rule, or end with ILLEGAL_COMMAND (30_encoding.md
R85). -/
def completeCommand (s : State) : Host.Outcome State Fault Refusal :=
  match decode s.latched.cmd with
  | .ok i => exec i s
  | .error _ => raise s .illegalCommand

/-- One step. -/
def step (s : State) : Host.Outcome State Fault Refusal :=
  if s.busy then
    match s.wait with
    | 0 => completeCommand s
    | n + 1 => hostMove { s with wait := n }
  else hostMove s

/-- The state in which the very next step completes the command word `w`: the host has driven every port its command
reads (a port that held no value with 0), has issued it, and its LATENCY has passed (log 17). -/
def State.withFetchWord (s : State) (nbits w : Nat) : State :=
  State.issued { s with ports := s.ports.drivenFor (BitVec.ofNat 32 (w % 2 ^ nbits)) }
    (BitVec.ofNat 32 (w % 2 ^ nbits)) 0

end Sys2Proof.Machine
end

