-- ==== Sys2Proof/Safety.lean ====
section
/-!
DEFINITION. The terms the claims use: the exact rationals of 00_scope.md R8 and R11 and of 40_normalizer.md R100 written
as relations (no function of the machine computes them), the grammar of 46_text_parser.md R224, the states a completion
leaves (60_exceptions.md R304), and the invariant of the machine.
-/
namespace Sys2Proof.Machine

open Sys2Proof

/-! ## Exact values -/

/-- The value of an exact rational in scientific form. -/
def Exact.toRat (x : Exact) : ℚ := (x.num : ℚ) / (x.den : ℚ) * (10 : ℚ) ^ (-x.scale)

/-- `val(w)` of 10_state.md R36. -/
def ratVal (w : Word) : ℚ := (mant w : ℚ) * (10 : ℚ) ^ (-(expo w))

/-- `n` is `roundHE(x)` (00_scope.md R11): the nearest integer, at a tie the even one. -/
def RoundsTo (x : ℚ) (n : ℤ) : Prop :=
  |x - (n : ℚ)| < 1 / 2 ∨ (|x - (n : ℚ)| = 1 / 2 ∧ n % 2 = 0)

/-- `strip(m, e)` is `(m', e')` for a nonzero `m` (00_scope.md R14). -/
def StripsTo (m e m' e' : ℤ) : Prop :=
  ∃ j : ℕ, m = m' * 10 ^ j ∧ e' = e - (j : ℤ) ∧ m' % 10 ≠ 0

/-- `k` is `digits(m)` (00_scope.md R12). -/
def HasDigits (m : ℤ) (k : ℕ) : Prop :=
  (m = 0 ∧ k = 1) ∨ (m ≠ 0 ∧ 0 < k ∧ 10 ^ (k - 1) ≤ m.natAbs ∧ m.natAbs < 10 ^ k)

/-- The underflow branch of R100 for the stripped `m2`, `e2` with `e2 > 255`. -/
def UnderflowsTo (m2 e2 : ℤ) (w : Word) : Prop :=
  ∃ d : ℕ, HasDigits m2 d ∧
    (((d : ℤ) ≤ e2 - 255 ∧ w = zero) ∨
      (e2 - 255 < (d : ℤ) ∧ ∃ m3 m4 e4 : ℤ,
        RoundsTo ((m2 : ℚ) / (10 : ℚ) ^ (e2 - 255)) m3 ∧ StripsTo m3 255 m4 e4 ∧ w = pack m4 e4))

/-- `Canon(x)` is `w` (40_normalizer.md R100, step by step). -/
def IsCanon (x : ℚ) (w : Word) : Prop :=
  (x = 0 ∧ w = zero) ∨
    (x ≠ 0 ∧ ∃ p m1 m2 e2 : ℤ,
      (10 : ℚ) ^ p ≤ |x| ∧ |x| < (10 : ℚ) ^ (p + 1) ∧
      RoundsTo (x * (10 : ℚ) ^ (15 - p)) m1 ∧ StripsTo m1 (15 - p) m2 e2 ∧
      ((e2 < -255 ∧ 0 < x ∧ w = pinf) ∨ (e2 < -255 ∧ x < 0 ∧ w = ninf) ∨
        (255 < e2 ∧ UnderflowsTo m2 e2 w) ∨ (-255 ≤ e2 ∧ e2 ≤ 255 ∧ w = pack m2 e2)))

/-! ## Results of the arithmetic commands, as relations -/

/-- `w` is the sum of `a` and `b`: the table of 41_adder.md R140 in its order, then R141. -/
def IsSum (a b w : Word) : Prop :=
  if a = nan ∨ b = nan then w = nan
  else if isFiniteWord a = false ∧ isFiniteWord b = false then w = (if a = b then a else nan)
  else if isFiniteWord a = false then w = a
  else if isFiniteWord b = false then w = b
  else IsCanon (ratVal a + ratVal b) w

/-- `w` is the product of `a` and `b`: the table of 42_multiplier.md R160, then R161. -/
def IsProduct (a b w : Word) : Prop :=
  if isFiniteWord a = true ∧ isFiniteWord b = true then IsCanon (ratVal a * ratVal b) w
  else if mant a = 0 ∨ mant b = 0 then w = nan
  else if (0 < mant a) = (0 < mant b) then w = pinf
  else w = ninf

/-- `w` is the quotient of `a` and `b`: the rows of 43_divider.md R170 in order, then R171. -/
def IsQuotient (a b w : Word) : Prop :=
  if a = nan ∨ b = nan ∨ b = zero then w = nan
  else if a = zero then w = zero
  else if isFiniteWord a = false ∧ isFiniteWord b = false then w = nan
  else if isFiniteWord b = false then w = zero
  else if isFiniteWord a = false then w = (if (0 < mant a) = (0 < mant b) then pinf else ninf)
  else IsCanon (ratVal a / ratVal b) w

/-- The sign of a rational (00_scope.md R15). -/
def ratSign (x : ℚ) : ℤ := if x < 0 then -1 else if x = 0 then 0 else 1

/-- `c` is `compare(a, b)`: the table of 45_comparator.md R190 in its order, then R191. -/
def IsOrder (a b : Word) (c : ℤ) : Prop :=
  if a = nan ∧ b = nan then c = 0
  else if a = nan then c = 1
  else if b = nan then c = -1
  else if isFiniteWord a = false ∨ isFiniteWord b = false then
    c = (if a.toInt < b.toInt then -1 else if a.toInt = b.toInt then 0 else 1)
  else c = ratSign (ratVal a - ratVal b)

/-! ## Texts -/

/-- A run of digit bytes (possibly empty). -/
def DigitRun (t : List Byte) : Prop := ∀ b ∈ t, isDigitByte b = true

/-- The integer whose decimal digits are `t` (46_text_parser.md R225). -/
def decimalValue (t : List Byte) : ℕ := Nat.ofDigits 10 (t.reverse.map digitValue)

/-- `sign` of R224, or its absence: whether it is `-`. -/
def SignText (t : List Byte) (neg : Bool) : Prop :=
  (t = [] ∧ neg = false) ∨ (t = [0x2B#8] ∧ neg = false) ∨ (t = [0x2D#8] ∧ neg = true)

/-- `significand` of R224 with its digits before and after the point. -/
def SignificandText (t ip fr : List Byte) : Prop :=
  DigitRun ip ∧ DigitRun fr ∧
    ((ip ≠ [] ∧ fr = [] ∧ t = ip) ∨ (ip ≠ [] ∧ t = ip ++ [0x2E#8] ++ fr) ∨ (ip = [] ∧ fr ≠ [] ∧ t = [0x2E#8] ++ fr))

/-- `exponent` of R224 within the limits of R226, or its absence, and its value. `frac` is the number of fraction
digits. -/
def ExponentText (t : List Byte) (frac : ℕ) (x : ℤ) : Prop :=
  (t = [] ∧ x = 0) ∨
    ∃ (mark : Byte) (sg ds : List Byte) (neg : Bool),
      (mark = 0x65#8 ∨ mark = 0x45#8) ∧ SignText sg neg ∧ ds ≠ [] ∧ DigitRun ds ∧ t = [mark] ++ sg ++ ds ∧
        x = (if neg then -(decimalValue ds : ℤ) else (decimalValue ds : ℤ)) ∧
        -(2 ^ 31 - 1) ≤ x ∧ x ≤ 2 ^ 31 - 1 ∧ -(2 ^ 31) ≤ (frac : ℤ) - x ∧ (frac : ℤ) - x ≤ 2 ^ 31 - 1

/-- `t` matches `number` (R224) within the limits of R226, and its value is `v` (R225). -/
def NumberText (t : List Byte) (v : ℚ) : Prop :=
  ∃ (sg sig ip fr ex : List Byte) (neg : Bool) (x : ℤ),
    t = sg ++ sig ++ ex ∧ SignText sg neg ∧ SignificandText sig ip fr ∧ ExponentText ex fr.length x ∧
      v = (if neg then -1 else 1) * (decimalValue (ip ++ fr) : ℚ) * (10 : ℚ) ^ (x - (fr.length : ℤ))

/-- `t` is a special literal (R223) and names `w`. -/
def LiteralText (t : List Byte) (w : Word) : Prop :=
  (t = nanText ∧ w = nan) ∨ (t = pinfText ∧ w = pinf) ∨ (t = ninfText ∧ w = ninf)

/-- The ASCII digits of `n`, most significant first; `0` for 0. -/
def decimalText (n : ℕ) : List Byte :=
  if n = 0 then [0x30#8] else (Nat.digits 10 n).reverse.map fun d => BitVec.ofNat 8 (0x30 + d)

/-! ## What a completion reads -/

/-- Two sets of latches hold the same at the latch of one port. -/
def Latches.AgreeAt (l l' : Latches) (p : PortName) : Prop :=
  match p with
  | .cmd => l.cmd = l'.cmd
  | .opa => l.opa = l'.opa
  | .opb => l.opb = l'.opb
  | .opn => l.opn = l'.opn
  | .addr => l.addr = l'.addr
  | .len => l.len = l'.len

/-! ## What a completion leaves (60_exceptions.md R304) -/

/-- After an OK completion of a command other than FORMAT with result `w`: everything else is as before. -/
def afterOk (s : State) (w : Word) : State :=
  { s with status := 0x80#8, result := some w, rlen := none, eaddr := none, elen := none, busy := false, raced := [] }

/-- After a completion with an error code and no value in any result register. -/
def afterError (s : State) (status : Byte) : State :=
  { s with status := status, result := none, rlen := none, eaddr := none, elen := none, busy := false, raced := [] }

/-- After FORMAT_ERROR: EADDR and ELEN hold the region. -/
def afterFormatError (s : State) (addr len : Half) : State :=
  { s with status := 0x01#8, result := none, rlen := none, eaddr := some addr, elen := some len, busy := false,
           raced := [] }

/-- `t` is `s` after an OK FORMAT of `n` bytes, BUF and the count of draws apart. -/
def afterFormat (s : State) (n : ℕ) (t : State) : Prop :=
  t = { s with status := 0x80#8, result := none, rlen := some (BitVec.ofNat 32 n), eaddr := none, elen := none,
               busy := false, raced := [], mem := t.mem, draws := t.draws }

/-! ## The invariant -/

/-- BUF is in its canonical form and inside BUF_SIZE. -/
def State.InvMem (s : State) : Prop := Memory.wf s.bufSize.val s.mem = true

/-- STATUS is its reset value or what some completion writes (10_state.md R41, 60_exceptions.md R302). -/
def State.InvStatus (s : State) : Prop :=
  s.status ∈ [0x00#8, 0x80#8, 0x01#8, 0x02#8, 0x03#8, 0x04#8, 0x05#8]

/-- Which result registers hold a value, by STATUS (10_state.md R40, R42; 60_exceptions.md R304). -/
def State.InvResults (s : State) : Prop :=
  (s.status = 0x80#8 → (s.result.isSome != s.rlen.isSome) = true) ∧
    (s.status ≠ 0x80#8 → s.result = none ∧ s.rlen = none) ∧
    (s.status = 0x01#8 → s.eaddr.isSome = true ∧ s.elen.isSome = true) ∧
    (s.status ≠ 0x01#8 → s.eaddr = none ∧ s.elen = none)

/-- A command in progress is the one on the CMD port, and the host has driven every port it reads (60_exceptions.md R300,
R301; 10_state.md R32). -/
def State.InvLatched (s : State) : Prop :=
  s.busy = true → s.ports.cmd = some s.latched.cmd ∧ ∀ p ∈ commandReads s.latched.cmd, s.ports.holds p = true

/-- A raced address is a byte of BUF in the region of the command in progress, each listed once (20_memory.md R71). -/
def State.InvRaced (s : State) : Prop :=
  (s.busy = false → s.raced = []) ∧ s.raced.Nodup ∧
    ∀ a ∈ s.raced, a < s.bufSize.val ∧ s.inLatchedRegion a = true

/-- The invariant of the machine. -/
def State.Inv (s : State) : Prop :=
  s.InvMem ∧ s.InvStatus ∧ s.InvResults ∧ s.InvLatched ∧ s.InvRaced

end Sys2Proof.Machine
end

