-- ==== Sys2Proof/Certificates/Slice0/Obligations.lean ====
section
/-!
DEFINITION. The statements for the provers: what the numbered rules of spec/ say that the machine does. The exact values
are stated over the rationals by the relations of Sys2Proof/Safety.lean.
-/

open Sys2Proof Sys2Proof.Machine

/-! ## Encoding (30_encoding.md) -/

/-- R80, R83, R85: the word of every command decodes to it, and among all 32-bit words no other does. -/
def Obligations.OnlyItsOwnWordDecodesToACommand : Prop :=
  ∀ (w : BitVec 32) (i : Instr), decode w = .ok i ↔ w = encode i

/-- Words written out from R80, R82 and R83, with words that are illegal by R85, one for each reason, and the ports that
some of the commands read (R83's ports column). -/
def Obligations.WrittenOutWordsDecode : Prop :=
  decode 0x00000000#32 = .ok .pack ∧ decode 0x00000006#32 = .ok .validateFinite ∧ decode 0x00000013#32 = .ok .abs ∧
    decode 0x00000020#32 = .ok .mul ∧ decode 0x00000030#32 = .ok .div ∧ decode 0x00000040#32 = .ok .round ∧
    decode 0x00000053#32 = .ok .eq ∧ decode 0x00000060#32 = .ok .parse ∧ decode 0x00000070#32 = .ok .format ∧
    decode 0x00000110#32 = .error .reservedBits ∧ decode 0x00000080#32 = .error .reservedUnit ∧
    decode 0x00000021#32 = .error .unassignedFunction ∧
    commandReads 0x00000012#32 = [.opa] ∧ commandReads 0x00000010#32 = [.opa, .opb] ∧
    commandReads 0x00000040#32 = [.opa, .opn] ∧ commandReads 0x00000060#32 = [.addr, .len] ∧
    commandReads 0x00000070#32 = [.opa, .addr, .len]

/-- R85: a word is illegal exactly when RSV ≠ 0, or UNIT is 8..15, or its opcode is no row of R83; then it reads no
operand port, and its completion writes STATUS = 0x05 and leaves no value in the result registers (60_exceptions.md
R304); ports, latches, BUF, the draws and everything else stay. That LATENCY is a count of steps, here at its end, is the
model's choice (log 2). -/
def Obligations.IllegalWordsCompleteWithIllegalCommand : Prop :=
  ∀ (w : BitVec 32),
    ((∃ e, decode w = .error e) ↔
      (w.extractLsb' 8 24 ≠ 0#24 ∨ 8 ≤ (w.extractLsb' 4 4).toNat ∨
        w.extractLsb' 0 8 ∉ [0x00#8, 0x01#8, 0x02#8, 0x03#8, 0x04#8, 0x05#8, 0x06#8, 0x10#8, 0x11#8, 0x12#8, 0x13#8,
          0x20#8, 0x30#8, 0x40#8, 0x50#8, 0x51#8, 0x52#8, 0x53#8, 0x60#8, 0x70#8])) ∧
    ((∃ e, decode w = .error e) → commandReads w = [] ∧
      ∀ s : State, s.busy = true → s.wait = 0 → s.latched.cmd = w → step s = .next (afterError s 0x05#8))

/-! ## The step (60_exceptions.md R300) -/

/-- R300: when its LATENCY has passed, the command in progress is completed by the rule of the command its latched word
decodes to. That LATENCY is a count of steps, here at its end, is the model's choice (log 2). -/
def Obligations.StepRunsTheLatchedCommand : Prop :=
  ∀ (s : State) (w : BitVec 32) (i : Instr),
    s.busy = true → s.wait = 0 → s.latched.cmd = w → decode w = .ok i → step s = exec i s

/-- R300, R301, R315: at every other step the host makes its next move, or nothing happens when it has none. That the
host is a list of events and that one step of waiting passes with each is the model's choice (logs 2 and 4). -/
def Obligations.StepLetsTheHostMove : Prop :=
  (∀ (s : State) (ev : HostEvent) (rest : List HostEvent), s.busy = false → s.agenda = ev :: rest →
    step s = hostEvent ev { s with agenda := rest }) ∧
  (∀ (s : State) (n : ℕ) (ev : HostEvent) (rest : List HostEvent), s.busy = true → s.wait = n + 1 →
    s.agenda = ev :: rest → step s = hostEvent ev { s with wait := n, agenda := rest }) ∧
  (∀ s : State, s.busy = false → s.agenda = [] → step s = .next s) ∧
  (∀ (s : State) (n : ℕ), s.busy = true → s.wait = n + 1 → s.agenda = [] → step s = .next { s with wait := n })

/-- R300, R344: while a command is in progress and its LATENCY has not passed, a step that is no reset leaves STATUS and
the result registers as they are; a reset ends the command (R340). That the command comes exactly one step nearer to its
completion is the model's choice, the count-down of log 2: R300 and R346 say only that it completes after finitely long. -/
def Obligations.ACommandInProgressIsInvisibleAndAdvances : Prop :=
  ∀ (s t : State) (n : ℕ), s.busy = true → s.wait = n + 1 → step s = .next t →
    (t.busy = true ∧ t.wait = n ∧ t.latched = s.latched ∧ t.status = s.status ∧ t.result = s.result ∧
      t.rlen = s.rlen ∧ t.eaddr = s.eaddr ∧ t.elen = s.elen) ∨
    (∃ rest, s.agenda = .reset :: rest ∧ t.busy = false)

/-! ## The host's interactions (60_exceptions.md R301) -/

/-- R300, 30_encoding.md R84: an issue with BUSY = 0 whose command's ports all hold a value drives CMD, latches CMD and
exactly the ports the command reads, and sets BUSY; nothing else changes but the model's own count of LATENCY (log 2) and
its list of raced bytes, which is empty at an issue (log 7). That a latch whose port the command does not read keeps what
it held is the model's choice (log 14). -/
def Obligations.IssueLatchesThePortsRead : Prop :=
  ∀ (s : State) (cmd : Half) (latency : ℕ) (rest : List HostEvent),
    s.busy = false → s.agenda = .issue cmd latency :: rest →
    (∀ p ∈ commandReads cmd, s.ports.holds p = true) →
    ∃ l : Latches,
      step s = .next { s with
        agenda := rest, ports := { s.ports with cmd := some cmd }, busy := true, wait := latency, raced := [],
        latched := l } ∧
      l.cmd = cmd ∧
      (if .opa ∈ commandReads cmd then s.ports.opa = some l.opa else l.opa = s.latched.opa) ∧
      (if .opb ∈ commandReads cmd then s.ports.opb = some l.opb else l.opb = s.latched.opb) ∧
      (if .opn ∈ commandReads cmd then s.ports.opn = some l.opn else l.opn = s.latched.opn) ∧
      (if .addr ∈ commandReads cmd then s.ports.addr = some l.addr else l.addr = s.latched.addr) ∧
      (if .len ∈ commandReads cmd then s.ports.len = some l.len else l.len = s.latched.len)

/-- 10_state.md R32, R45: an issue whose command reads a port that holds no value is the fault UnwrittenPort. That it
comes at the issue is the model's reading (log 12). -/
def Obligations.AnIssueReadingAnUndrivenPortFaults : Prop :=
  ∀ (s : State) (cmd : Half) (latency : ℕ) (rest : List HostEvent) (p : PortName),
    s.busy = false → s.agenda = .issue cmd latency :: rest → p ∈ commandReads cmd → s.ports.holds p = false →
    ∃ q ∈ commandReads cmd, s.ports.holds q = false ∧ step s = .fault (.unwrittenPort q)

/-- R301: a host write of CMD while BUSY = 1 is the fault IssueWhileBusy, whatever the command. -/
def Obligations.AnIssueWhileBusyFaults : Prop :=
  ∀ (s : State) (n : ℕ) (cmd : Half) (latency : ℕ) (rest : List HostEvent),
    s.busy = true → s.wait = n + 1 → s.agenda = .issue cmd latency :: rest → step s = .fault .issueWhileBusy

/-- 10_state.md R45, 60_exceptions.md R301, 70_reset_and_hazards.md R344: in every state, idle or busy, a host read of
RESULT, RLEN, EADDR or ELEN gives back its value and changes nothing of the block; while the register holds no value it is
the fault UnwrittenRegister. 20_memory.md R70, R71: a host read of a byte of BUF gives back the byte, but any value when it
lies in the region of a FORMAT in progress; that a byte nothing has written reads as any value, and that a read outside
BUF faults, is the model's choice (logs 6 and 13). -/
def Obligations.AHostReadGivesTheValueOrFaults : Prop :=
  ∀ s : State,
    (∀ v, s.result = some v → hostEvent .readResult s = .next { s with seen := .result v :: s.seen }) ∧
    (s.result = none → hostEvent .readResult s = .fault (.unwrittenRegister .result)) ∧
    (∀ v, s.rlen = some v → hostEvent .readRlen s = .next { s with seen := .rlen v :: s.seen }) ∧
    (s.rlen = none → hostEvent .readRlen s = .fault (.unwrittenRegister .rlen)) ∧
    (∀ v, s.eaddr = some v → hostEvent .readEaddr s = .next { s with seen := .eaddr v :: s.seen }) ∧
    (s.eaddr = none → hostEvent .readEaddr s = .fault (.unwrittenRegister .eaddr)) ∧
    (∀ v, s.elen = some v → hostEvent .readElen s = .next { s with seen := .elen v :: s.seen }) ∧
    (s.elen = none → hostEvent .readElen s = .fault (.unwrittenRegister .elen)) ∧
    ∀ a : Half,
      (s.bufSize.val ≤ a.toNat → hostEvent (.readBuf a) s = .fault (.outsideBuffer a.toNat)) ∧
      (a.toNat < s.bufSize.val →
        (s.inProgress = some .format ∧ s.inLatchedRegion a.toNat = true) ∨ memRead s.mem a.toNat = none →
        hostEvent (.readBuf a) s =
          .next { s with seen := .buf a (Config.freeByte s.draws) :: s.seen, draws := s.draws + 1 }) ∧
      (∀ v, a.toNat < s.bufSize.val → ¬(s.inProgress = some .format ∧ s.inLatchedRegion a.toNat = true) →
        memRead s.mem a.toNat = some v → hostEvent (.readBuf a) s = .next { s with seen := .buf a v :: s.seen })

/-- 20_memory.md R70, R71, 70_reset_and_hazards.md R344: a host write of a byte of BUF writes that byte and no other. It
races exactly when a PARSE or FORMAT is in progress whose region holds the byte; then the byte takes any value. That this
draw is taken at the write, and that the write is remembered in `raced`, are the model's choices (log 7), and so is the
fault at an address BUF does not have (log 13). -/
def Obligations.AHostWriteChangesOneByte : Prop :=
  ∀ (s : State) (a : Half) (v : Byte),
    (a.toNat < s.bufSize.val → ∃ t, hostEvent (.writeBuf a v) s = .next t ∧
      t = { s with mem := t.mem, raced := t.raced, draws := t.draws } ∧
      (∀ b, b ≠ a.toNat → memRead t.mem b = memRead s.mem b) ∧
      ((s.inProgress = some .parse ∨ s.inProgress = some .format) ∧ s.inLatchedRegion a.toNat = true →
        memRead t.mem a.toNat = some (Config.freeByte s.draws) ∧ t.draws = s.draws + 1 ∧
          ∀ b, b ∈ t.raced ↔ b ∈ s.raced ∨ b = a.toNat) ∧
      (¬((s.inProgress = some .parse ∨ s.inProgress = some .format) ∧ s.inLatchedRegion a.toNat = true) →
        memRead t.mem a.toNat = some v ∧ t.draws = s.draws ∧ t.raced = s.raced)) ∧
    (s.bufSize.val ≤ a.toNat → hostEvent (.writeBuf a v) s = .fault (.outsideBuffer a.toNat))

/-- 10_state.md R44, 60_exceptions.md R301: driving a port changes that port alone, also while a command is in progress,
and never a latch; reads of STATUS and BUSY give their value; a poll of BUSY ends only when it is 0 (that the poll stays
first on the agenda until then is the model's choice, log 4). -/
def Obligations.DrivingAndPollingChangeNothingElse : Prop :=
  ∀ s : State,
    (∀ v, hostEvent (.driveOpa v) s = .next { s with ports := { s.ports with opa := some v } }) ∧
    (∀ v, hostEvent (.driveOpb v) s = .next { s with ports := { s.ports with opb := some v } }) ∧
    (∀ v, hostEvent (.driveOpn v) s = .next { s with ports := { s.ports with opn := some v } }) ∧
    (∀ v, hostEvent (.driveAddr v) s = .next { s with ports := { s.ports with addr := some v } }) ∧
    (∀ v, hostEvent (.driveLen v) s = .next { s with ports := { s.ports with len := some v } }) ∧
    hostEvent .readStatus s = .next { s with seen := .status s.status :: s.seen } ∧
    hostEvent .readBusy s = .next { s with seen := .busy s.busy :: s.seen } ∧
    (s.busy = true → hostEvent .await s = .next { s with agenda := .await :: s.agenda }) ∧
    (s.busy = false → hostEvent .await s = .next s)

/-- R340, R341, 10_state.md R49: reset leaves STATUS 0x00, BUSY 0 and no value in any port or result register; the host
and BUF_SIZE stay; BUF stays too, but each byte of the region of a FORMAT in progress that BUF has holds a drawn byte
(that a region leaving BUF is drawn as far as BUF goes, and what the latches hold after a reset, are the model's choices,
logs 10 and 14). -/
def Obligations.ResetLeavesTheResetState : Prop :=
  ∀ (s : State), ∃ t, hostEvent .reset s = .next t ∧
    t = { s with
      ports := Ports.undriven, latched := Latches.cleared, result := none, rlen := none, status := 0x00#8,
      eaddr := none, elen := none, busy := false, wait := 0, raced := [], mem := t.mem, draws := t.draws } ∧
    (s.inProgress ≠ some .format → t.mem = s.mem ∧ t.draws = s.draws) ∧
    (∀ addr len, s.inProgress = some .format → s.latched.addr = addr → s.latched.len = len →
      ∀ b, (¬(addr.toNat ≤ b ∧ b < addr.toNat + len.toNat) → memRead t.mem b = memRead s.mem b) ∧
        (addr.toNat ≤ b → b < addr.toNat + len.toNat → b < s.bufSize.val →
          ∃ k, s.draws ≤ k ∧ memRead t.mem b = some (Config.freeByte k)))

/-! ## The normalizer (40_normalizer.md) -/

/-- 10_state.md R38: pack keeps the low 55 and the low 9 bits, and unpacking gives the fields back in their ranges. -/
def Obligations.PackAndItsRoundTrip : Prop :=
  (∀ m e : ℤ, pack m e = BitVec.ofInt 64 (m * 2 ^ 9 + e % 2 ^ 9)) ∧
  (∀ m e : ℤ, -(2 ^ 54) ≤ m → m ≤ 2 ^ 54 - 1 → -256 ≤ e → e ≤ 255 → mant (pack m e) = m ∧ expo (pack m e) = e)

/-- 10_state.md R35: what canonical means, its cases exclude each other, canonical words are equal as words exactly when
their values are, and the list of the non-canonical words. -/
def Obligations.CanonicalWordsAreUnique : Prop :=
  (∀ w : Word, canonical w = true ↔
    ((w = nan ∨ w = pinf ∨ w = ninf) ∨ (mant w = 0 ∧ expo w = 0) ∨
      (-255 ≤ expo w ∧ expo w ≤ 255 ∧ mant w ≠ 0 ∧ |mant w| ≤ 9999999999999999 ∧ mant w % 10 ≠ 0))) ∧
  (∀ w : Word, ¬((w = nan ∨ w = pinf ∨ w = ninf) ∧ -255 ≤ expo w) ∧ (w = zero ↔ mant w = 0 ∧ expo w = 0)) ∧
  (∀ a b : Word, canonical a = true → canonical b = true → isFiniteWord a = true → isFiniteWord b = true →
    (a = b ↔ ratVal a = ratVal b)) ∧
  (∀ w : Word, canonical w = false ↔
    ((mant w = 0 ∧ expo w ≠ 0 ∧ expo w ≠ -256) ∨ (9999999999999999 < |mant w| ∧ expo w ≠ -256) ∨
      (mant w ≠ 0 ∧ mant w % 10 = 0 ∧ expo w ≠ -256) ∨
      (expo w = -256 ∧ mant w ≠ 0 ∧ mant w ≠ 2 ^ 54 - 1 ∧ mant w ≠ -(2 ^ 54 - 1))))

/-- R100: the machine's Canon gives the word of R100's steps, for every exact rational. -/
def Obligations.CanonFollowsItsSteps : Prop :=
  ∀ x : Exact, 0 < x.den → IsCanon x.toRat (canon x)

/-- R100, R101: the steps of R100 give one word for each rational, so equal values have equal words however they are
written. -/
def Obligations.CanonIsAFunctionOfTheValue : Prop :=
  (∀ (x : ℚ) (w w' : Word), IsCanon x w → IsCanon x w' → w = w') ∧
  (∀ x y : Exact, 0 < x.den → 0 < y.den → x.toRat = y.toRat → canon x = canon y)

/-- R105 (a), (b), (c): Canon's results are canonical and never NaN, canonical words are its fixed points, and it
commutes with negation. -/
def Obligations.CanonIsCanonicalIdempotentAndOdd : Prop :=
  (∀ (x : ℚ) (w : Word), IsCanon x w → canonical w = true ∧ w ≠ nan) ∧
  (∀ w : Word, canonical w = true → isFiniteWord w = true → canon (val w) = w) ∧
  (∀ (x : ℚ) (w : Word), IsCanon x w → IsCanon (-x) (pack (-mant w) (expo w)))

/-- R110: PACK gives OPA[54:0] above OPN[8:0], with no validation. -/
def Obligations.PackAssemblesTheFields : Prop :=
  ∀ (s : State) (a : Word) (n : Half), s.latched.opa = a → s.latched.opn = n →
    exec .pack s = .next (afterOk s (a.extractLsb' 0 55 ++ n.extractLsb' 0 9 : BitVec (55 + 9)))

/-- R111, R112, R113: for any word UNPACK_M is the arithmetic right shift by 9, UNPACK_E the sign-extended low 9 bits,
and IS_FINITE is 0 exactly for the raw exponent field 0x100. -/
def Obligations.UnpackAndIsFiniteReadTheFields : Prop :=
  ∀ (s : State) (a : Word), s.latched.opa = a →
    exec .unpackM s = .next (afterOk s (a.sshiftRight 9)) ∧
    exec .unpackE s = .next (afterOk s ((a.extractLsb' 0 9).signExtend 64)) ∧
    exec .isFinite s = .next (afterOk s (if a.extractLsb' 0 9 = 0x100#9 then 0#64 else 1#64))

/-- R114: FROM_PARTS gives Canon of the exact value of its parts. -/
def Obligations.FromPartsGivesCanonOfItsValue : Prop :=
  ∀ (s : State) (a : Word) (n : Half), s.latched.opa = a → s.latched.opn = n →
    ∃ w, IsCanon ((a.toInt : ℚ) * (10 : ℚ) ^ (-n.toInt)) w ∧ exec .fromParts s = .next (afterOk s w)

/-- R115, R116: VALIDATE gives a canonical word back and ends with INVALID_VALUE (STATUS 0x03) for any other;
VALIDATE_FINITE also for the three sentinels. -/
def Obligations.ValidateGivesTheWordOrInvalidValue : Prop :=
  ∀ (s : State) (a : Word), s.latched.opa = a →
    exec .validate s = .next (if canonical a = true then afterOk s a else afterError s 0x03#8) ∧
    exec .validateFinite s =
      .next (if canonical a = true ∧ a ≠ nan ∧ a ≠ pinf ∧ a ≠ ninf then afterOk s a else afterError s 0x03#8)

/-- R106: each of the twelve commands with word operands faults on a non-canonical OPA, and those with OPB on a
non-canonical OPB after a canonical OPA, whatever the other operands hold. The six others accept any word. -/
def Obligations.NonCanonicalOperandsFault : Prop :=
  ∀ (i : Instr) (s : State),
    (i ∈ [Instr.add, .sub, .neg, .abs, .mul, .div, .round, .cmp, .min, .max, .eq, .format] →
      canonical s.latched.opa = false → exec i s = .fault (.nonCanonicalOperand s.latched.opa)) ∧
    (i ∈ [Instr.add, .sub, .mul, .div, .cmp, .min, .max, .eq] →
      canonical s.latched.opa = true → canonical s.latched.opb = false →
        exec i s = .fault (.nonCanonicalOperand s.latched.opb)) ∧
    (i ∈ [Instr.pack, .unpackM, .unpackE, .isFinite, .validate, .validateFinite] → ∃ t, exec i s = .next t)

/-! ## Arithmetic (41_adder.md to 44_rounder.md) -/

/-- R140, R141, R142: ADD of canonical words gives the table's word when a sentinel is involved, else Canon of the exact
sum; nothing else changes. -/
def Obligations.AddGivesTheRoundedSum : Prop :=
  ∀ (s : State) (a b : Word), s.latched.opa = a → s.latched.opb = b →
    canonical a = true → canonical b = true →
    ∃ w, IsSum a b w ∧ exec .add s = .next (afterOk s w)

/-- R143: SUB gives the sum of the first operand and the negation of the second. -/
def Obligations.SubAddsTheNegation : Prop :=
  ∀ (s : State) (a b : Word), s.latched.opa = a → s.latched.opb = b →
    canonical a = true → canonical b = true →
    ∃ w, IsSum a (pack (-mant b) (expo b)) w ∧ exec .sub s = .next (afterOk s w)

/-- R144, R145: NEG flips the sign of the mantissa and ABS takes its magnitude, the exponent staying, and the results
are canonical. -/
def Obligations.NegAndAbsChangeTheMantissaOnly : Prop :=
  ∀ (s : State) (a : Word), s.latched.opa = a → canonical a = true →
    (∃ w, mant w = -mant a ∧ expo w = expo a ∧ canonical w = true ∧ exec .neg s = .next (afterOk s w)) ∧
    (∃ w, mant w = |mant a| ∧ expo w = expo a ∧ canonical w = true ∧ exec .abs s = .next (afterOk s w))

/-- R160, R161, R162: MUL of canonical words gives the table's word when a sentinel is involved, else Canon of the exact
product. -/
def Obligations.MulGivesTheRoundedProduct : Prop :=
  ∀ (s : State) (a b : Word), s.latched.opa = a → s.latched.opb = b →
    canonical a = true → canonical b = true →
    ∃ w, IsProduct a b w ∧ exec .mul s = .next (afterOk s w)

/-- R170, R171, R172: DIV of canonical words gives the first row that applies, else Canon of the exact quotient. -/
def Obligations.DivGivesTheRoundedQuotient : Prop :=
  ∀ (s : State) (a b : Word), s.latched.opa = a → s.latched.opb = b →
    canonical a = true → canonical b = true →
    ∃ w, IsQuotient a b w ∧ exec .div s = .next (afterOk s w)

/-- R180, R181, R182: ROUND of a finite canonical word gives Canon of the nearest multiple of 10^(−N), for every N; of a
sentinel it ends with TYPE_ERROR (STATUS 0x02). -/
def Obligations.RoundGivesTheNearestMultiple : Prop :=
  ∀ (s : State) (a : Word) (n : Half), s.latched.opa = a → s.latched.opn = n → canonical a = true →
    (isFiniteWord a = true → ∃ (r : ℤ) (w : Word), RoundsTo (ratVal a * (10 : ℚ) ^ n.toInt) r ∧
      IsCanon ((r : ℚ) * (10 : ℚ) ^ (-n.toInt)) w ∧ exec .round s = .next (afterOk s w)) ∧
    (isFiniteWord a = false → exec .round s = .next (afterError s 0x02#8))

/-- R181: a value with at most N fractional digits is its own rounding. -/
def Obligations.RoundKeepsShortFractions : Prop :=
  ∀ (s : State) (a : Word) (n : Half), s.latched.opa = a → s.latched.opn = n → canonical a = true →
    isFiniteWord a = true → expo a ≤ n.toInt → exec .round s = .next (afterOk s a)

/-- R146 (a), R163 (a): with the operands exchanged, ADD and MUL give the same result. -/
def Obligations.AddAndMulCommute : Prop :=
  ∀ (s s' : State) (a b : Word), s.latched.opa = a → s.latched.opb = b →
    s'.latched.opa = b → s'.latched.opb = a → canonical a = true → canonical b = true →
    (∃ w, exec .add s = .next (afterOk s w) ∧ exec .add s' = .next (afterOk s' w)) ∧
    (∃ w, exec .mul s = .next (afterOk s w) ∧ exec .mul s' = .next (afterOk s' w))

/-- R146 (b): ZERO is the identity of ADD on finite words, and a finite word and its negation add to ZERO. -/
def Obligations.AddHasIdentityAndInverse : Prop :=
  ∀ (s : State) (a : Word), s.latched.opa = a → canonical a = true → isFiniteWord a = true →
    (s.latched.opb = zero → exec .add s = .next (afterOk s a)) ∧
    (s.latched.opb = (pack (-mant a) (expo a)) → exec .add s = .next (afterOk s zero))

/-- R163 (b), (d): a finite product of nonzero operands whose exponent sum is below −255 is the infinity of its sign,
and ZERO times a finite value is ZERO. -/
def Obligations.MulOverflowsToTheSignedInfinity : Prop :=
  ∀ (s : State) (a b : Word), s.latched.opa = a → s.latched.opb = b →
    canonical a = true → canonical b = true → isFiniteWord a = true → isFiniteWord b = true →
    (a ≠ zero → b ≠ zero → expo a + expo b < -255 →
      exec .mul s = .next (afterOk s (if 0 < mant a * mant b then pinf else ninf))) ∧
    (a = zero ∨ b = zero → exec .mul s = .next (afterOk s zero))

/-! ## Comparison (45_comparator.md) -/

/-- R190, R191, R192: CMP gives −1, 0 or 1 as a 64-bit word: the table when a sentinel is involved, else the order of the
exact values. -/
def Obligations.CmpGivesTheOrder : Prop :=
  ∀ (s : State) (a b : Word), s.latched.opa = a → s.latched.opb = b →
    canonical a = true → canonical b = true →
    ∃ c : ℤ, IsOrder a b c ∧ exec .cmp s = .next (afterOk s (BitVec.ofInt 64 c))

/-- R193, R194, R195: MIN, MAX and EQ in terms of the same order. -/
def Obligations.MinMaxAndEqFollowTheOrder : Prop :=
  ∀ (s : State) (a b : Word), s.latched.opa = a → s.latched.opb = b →
    canonical a = true → canonical b = true →
    ∃ c : ℤ, IsOrder a b c ∧
      exec .min s = .next (afterOk s (if c ≤ 0 then a else b)) ∧
      exec .max s = .next (afterOk s (if 0 ≤ c then a else b)) ∧
      exec .eq s = .next (afterOk s (if c = 0 then 1#64 else 0#64))

/-- R196: compare is antisymmetric, gives exactly one of −1, 0 and 1, is 0 exactly for equal words, and puts NaN above
every other word. -/
def Obligations.CompareIsTotal : Prop :=
  ∀ a b : Word, canonical a = true → canonical b = true →
    compareWords a b = -compareWords b a ∧
    (compareWords a b = -1 ∨ compareWords a b = 0 ∨ compareWords a b = 1) ∧
    (compareWords a b = 0 ↔ a = b) ∧
    (a = nan → b ≠ nan → compareWords a b = 1)

/-- The opening of 45_comparator.md ("a total order on canonical words"): compare is transitive. -/
def Obligations.CompareIsTransitive : Prop :=
  ∀ a b c : Word, canonical a = true → canonical b = true → canonical c = true →
    compareWords a b ≤ 0 → compareWords b c ≤ 0 → compareWords a c ≤ 0

/-! ## Text (46_text_parser.md, 47_text_formatter.md) -/

/-- R223, R224, R225, R226, R228: a text spells a word exactly when, trimmed, it is the literal of that word, or a
`number` within the exponent limits whose exact value has that word as its Canon. -/
def Obligations.ParseFollowsTheGrammar : Prop :=
  ∀ (t : List Byte) (w : Word),
    parseText t = some w ↔ (LiteralText (trim t) w ∨ ∃ v, NumberText (trim t) v ∧ IsCanon v w)

/-- R222: trimming removes WS_SET bytes at both ends and leaves none there. -/
def Obligations.TrimRemovesTheEnds : Prop :=
  ∀ t : List Byte, ∃ before after : List Byte,
    t = before ++ trim t ++ after ∧
    (∀ b ∈ before ++ after, b ∈ [0x09#8, 0x0A#8, 0x0B#8, 0x0C#8, 0x0D#8, 0x20#8]) ∧
    (∀ b rest, trim t = b :: rest → b ∉ [0x09#8, 0x0A#8, 0x0B#8, 0x0C#8, 0x0D#8, 0x20#8]) ∧
    (∀ b front, trim t = front ++ [b] → b ∉ [0x09#8, 0x0A#8, 0x0B#8, 0x0C#8, 0x0D#8, 0x20#8])

/-- R230, R231: PARSE of a region inside BUF whose every byte holds a value, with no race, gives the word the text
spells, or ends with FORMAT_ERROR and the region in EADDR and ELEN; BUF is unchanged. -/
def Obligations.ParseCompletes : Prop :=
  ∀ (s : State) (addr len : Half) (t : List Byte),
    s.latched.addr = addr → s.latched.len = len → addr.toNat + len.toNat ≤ s.bufSize.val → s.raced = [] →
    t.length = len.toNat → (∀ i, i < len.toNat → memRead s.mem (addr.toNat + i) = t[i]?) →
    (∀ w, parseText t = some w → exec .parse s = .next (afterOk s w)) ∧
    (parseText t = none → exec .parse s = .next (afterFormatError s addr len))

/-- 20_memory.md R64: a PARSE with no race whose region has a byte that holds no value is the fault UnwrittenBuffer, at
the first such byte. -/
def Obligations.ParseOfAnUnwrittenByteFaults : Prop :=
  ∀ (s : State) (addr len : Half) (k : ℕ),
    s.latched.addr = addr → s.latched.len = len → addr.toNat + len.toNat ≤ s.bufSize.val → s.raced = [] →
    k < len.toNat → (∀ i, i < k → (memRead s.mem (addr.toNat + i)).isSome = true) →
    memRead s.mem (addr.toNat + k) = none →
    exec .parse s = .fault (.unwrittenBuffer (addr.toNat + k))

/-- What a PARSE answers does not depend on what BUF holds at the bytes of its region that the host has written meanwhile.
It rests on the model's choice (log 7) that PARSE draws for each raced byte a further free byte, separate from the one BUF
then holds; 20_memory.md section 4 says only that the byte read takes any value. -/
def Obligations.ARacedByteIsNotRead : Prop :=
  ∀ (s : State) (mem : List Host.Cell), (∀ a, a ∉ s.raced → memRead mem a = memRead s.mem a) →
    (∀ t, exec .parse s = .next t → exec .parse { s with mem := mem } = .next { t with mem := mem }) ∧
    (∀ f, exec .parse s = .fault f → exec .parse { s with mem := mem } = .fault f)

/-- 20_memory.md R63: PARSE and FORMAT end with BOUNDS_ERROR (STATUS 0x04) when ADDR + LEN, not wrapped, exceeds
BUF_SIZE. PARSE leaves BUF as it was, and so does FORMAT but for bytes the host has written in a race (log 7). -/
def Obligations.RegionsOutsideBufEndWithBoundsError : Prop :=
  ∀ (s : State) (addr len : Half),
    s.latched.addr = addr → s.latched.len = len → s.bufSize.val < addr.toNat + len.toNat →
    exec .parse s = .next (afterError s 0x04#8) ∧
    (∀ w, s.latched.opa = w → canonical w = true → ∃ t, exec .format s = .next t ∧
      t = { afterError s 0x04#8 with mem := t.mem, draws := t.draws } ∧
      (∀ a, a ∉ s.raced → memRead t.mem a = memRead s.mem a) ∧
      (s.raced = [] → t = afterError s 0x04#8))

/-- R250 to R254: the text of every canonical word. -/
def Obligations.TextFollowsTheCases : Prop :=
  text nan = [0x4E#8, 0x61#8, 0x4E#8] ∧
  text pinf = [0x2B#8, 0x49#8, 0x6E#8, 0x66#8, 0x69#8, 0x6E#8, 0x69#8, 0x74#8, 0x79#8] ∧
  text ninf = [0x2D#8, 0x49#8, 0x6E#8, 0x66#8, 0x69#8, 0x6E#8, 0x69#8, 0x74#8, 0x79#8] ∧
  ∀ w : Word, canonical w = true → isFiniteWord w = true →
    ∃ (neg ds : List Byte),
      neg = (if mant w < 0 then [0x2D#8] else []) ∧ ds = decimalText (mant w).natAbs ∧
      (expo w = 0 → text w = neg ++ ds) ∧
      (expo w < 0 → text w = neg ++ ds ++ List.replicate (expo w).natAbs 0x30#8) ∧
      (0 < expo w → expo w < ds.length →
        text w = neg ++ ds.take (ds.length - (expo w).natAbs) ++ [0x2E#8] ++ ds.drop (ds.length - (expo w).natAbs)) ∧
      (0 < expo w → ds.length ≤ expo w →
        text w = neg ++ [0x30#8, 0x2E#8] ++ List.replicate ((expo w).natAbs - ds.length) 0x30#8 ++ ds)

/-- R255: the length of every text, and the longest ones. -/
def Obligations.TextLengthFollowsTheTable : Prop :=
  (text nan).length = 3 ∧ (text pinf).length = 9 ∧ (text ninf).length = 9 ∧
  (∀ w : Word, canonical w = true → isFiniteWord w = true → ∃ d : ℕ, HasDigits (mant w) d ∧
    (expo w ≤ 0 → ((text w).length : ℤ) = (if mant w < 0 then 1 else 0) + d - expo w) ∧
    (0 < expo w → expo w < d → ((text w).length : ℤ) = (if mant w < 0 then 1 else 0) + d + 1) ∧
    ((d : ℤ) ≤ expo w → ((text w).length : ℤ) = (if mant w < 0 then 1 else 0) + 2 + expo w)) ∧
  (∀ w : Word, canonical w = true → (text w).length ≤ 272 ∧ (0 < expo w → (text w).length ≤ 258)) ∧
  (text (pack (-9999999999999999) (-255))).length = 272 ∧ (text (pack (-1) 255)).length = 258

/-- R256, 20_memory.md R62, R70: FORMAT into a region inside BUF that is long enough writes the text at ADDR, first byte
lowest, sets RLEN to its length, and leaves every other byte of BUF as it was; a host read after the completion gives back
the text's bytes (bytes the host has written in a race excepted, log 7). -/
def Obligations.FormatWritesTheText : Prop :=
  ∀ (s : State) (w : Word) (addr len : Half),
    s.latched.opa = w → s.latched.addr = addr → s.latched.len = len → canonical w = true →
    addr.toNat + len.toNat ≤ s.bufSize.val → (text w).length ≤ len.toNat →
    ∃ t, exec .format s = .next t ∧ afterFormat s (text w).length t ∧ t.draws = s.draws + s.raced.length ∧
      (∀ a, a ∉ s.raced → memRead t.mem a =
        if addr.toNat ≤ a ∧ a < addr.toNat + (text w).length then (text w)[a - addr.toNat]? else memRead s.mem a) ∧
      ∀ (a : Half) (v : Byte), a.toNat ∉ s.raced → addr.toNat ≤ a.toNat → (text w)[a.toNat - addr.toNat]? = some v →
        hostEvent (.readBuf a) t = .next { t with seen := .buf a v :: t.seen }

/-- R257: FORMAT into a region inside BUF that is shorter than the text ends with BOUNDS_ERROR (STATUS 0x04); every byte
of the region then holds a drawn byte, and no byte outside it is written (raced bytes excepted, log 7). -/
def Obligations.FormatIntoAShortRegionDrawsTheRegion : Prop :=
  ∀ (s : State) (w : Word) (addr len : Half),
    s.latched.opa = w → s.latched.addr = addr → s.latched.len = len → canonical w = true →
    addr.toNat + len.toNat ≤ s.bufSize.val → len.toNat < (text w).length →
    ∃ t, exec .format s = .next t ∧ t = { afterError s 0x04#8 with mem := t.mem, draws := t.draws } ∧
      (∀ a, addr.toNat ≤ a → a < addr.toNat + len.toNat →
        ∃ k, s.draws ≤ k ∧ k < t.draws ∧ memRead t.mem a = some (Config.freeByte k)) ∧
      (∀ a, ¬(addr.toNat ≤ a ∧ a < addr.toNat + len.toNat) → a ∉ s.raced → memRead t.mem a = memRead s.mem a)

/-- R232: PARSE of the bytes a FORMAT has written, in any later state that still holds those bytes (whatever the rest of
BUF holds), gives the word back, the sentinels included. -/
def Obligations.ParseOfFormatGivesTheWord : Prop :=
  ∀ (s t u : State) (w : Word) (addr len n : Half),
    s.latched.opa = w → s.latched.addr = addr → s.latched.len = len → canonical w = true →
    s.raced = [] → exec .format s = .next t → t.rlen = some n →
    (∀ b, addr.toNat ≤ b → b < addr.toNat + n.toNat → memRead u.mem b = memRead t.mem b) →
    u.bufSize = t.bufSize → u.raced = [] → u.latched.addr = addr → u.latched.len = n →
    exec .parse u = .next (afterOk u w)

/-! ## Whole-machine rules -/

/-- R303: which codes a completion of each command, and of an illegal word, can have. -/
def Obligations.CommandsRaiseOnlyTheirOwnCodes : Prop :=
  (∀ (i : Instr) (s t : State), exec i s = .next t →
    match i with
    | .validate | .validateFinite => t.status = 0x80#8 ∨ t.status = 0x03#8
    | .round => t.status = 0x80#8 ∨ t.status = 0x02#8
    | .parse => t.status = 0x80#8 ∨ t.status = 0x04#8 ∨ t.status = 0x01#8
    | .format => t.status = 0x80#8 ∨ t.status = 0x04#8
    | _ => t.status = 0x80#8) ∧
  (∀ (s t : State) (w : BitVec 32) (e : DecodeError), s.busy = true → s.wait = 0 → s.latched.cmd = w →
    decode w = .error e → step s = .next t → t.status = 0x05#8)

/-- R304, 10_state.md R44, 20_memory.md R62: a completion sets BUSY to 0 and changes no port, no latch, no host data and
not BUF_SIZE; only FORMAT changes BUF. The list of raced bytes, the draws and the count of LATENCY are the model's own
(logs 2, 7 and 8). -/
def Obligations.CompletionsChangeOnlyTheResults : Prop :=
  ∀ (i : Instr) (s t : State), exec i s = .next t →
    t.busy = false ∧ t.raced = [] ∧ t.ports = s.ports ∧ t.latched = s.latched ∧ t.wait = s.wait ∧
    t.bufSize = s.bufSize ∧ t.agenda = s.agenda ∧ t.seen = s.seen ∧ s.draws ≤ t.draws ∧
    (i ≠ .format → t.mem = s.mem) ∧ (i ≠ .format → i ≠ .parse → t.draws = s.draws)

/-- 10_state.md R40, R41, R42, 60_exceptions.md R304: at every completion VALID is 1 exactly when CODE is 0, the
reserved bits are 0, exactly one of RESULT and RLEN holds a value on success (RLEN after FORMAT) and none after an
error, and EADDR and ELEN hold one exactly after FORMAT_ERROR. -/
def Obligations.CompletionsMatchStatusAndResults : Prop :=
  ∀ (i : Instr) (s t : State), exec i s = .next t →
    (statusValid t.status = true ↔ statusCode t.status = 0#4) ∧ statusReserved t.status = 0#3 ∧
    (statusCode t.status).toNat ≤ 5 ∧
    (t.result.isSome = true ↔ statusCode t.status = 0#4 ∧ i ≠ .format) ∧
    (t.rlen.isSome = true ↔ statusCode t.status = 0#4 ∧ i = .format) ∧
    (t.eaddr.isSome = true ↔ statusCode t.status = 1#4) ∧ (t.elen.isSome = true ↔ statusCode t.status = 1#4)

/-- R307: a completion faults only for a non-canonical operand or, in PARSE, an unwritten byte; and no command is
refused. -/
def Obligations.CompletionsFaultOnlyAsListed : Prop :=
  ∀ (i : Instr) (s : State),
    (∀ f, exec i s = .fault f →
      (∃ w, f = .nonCanonicalOperand w ∧ canonical w = false ∧ (s.latched.opa = w ∨ s.latched.opb = w)) ∨
      (∃ a, f = .unwrittenBuffer a ∧ i = .parse ∧ memRead s.mem a = none)) ∧
    (∀ r, exec i s ≠ .refused r)

/-- 10_state.md R48, 30_encoding.md R84: a command's completion depends only on what is latched of the ports it reads,
whatever the other latches hold (log 14), and, for PARSE, on the bytes of its region (a raced byte apart, for which it
draws: the model's choice, log 7): with those equal, all it writes into STATUS and the result registers is equal. PARSE and
FORMAT compare their region with BUF_SIZE, a parameter. The bytes a FORMAT leaves in BUF follow from BUF, the races and the
draws before it. -/
def Obligations.CommandsDependOnlyOnTheirOperands : Prop :=
  ∀ (i : Instr) (s s' t : State), (∀ p ∈ portsRead i, s'.latched.AgreeAt s.latched p) →
    (i = .parse ∨ i = .format → s'.bufSize = s.bufSize) →
    (i = .parse → s'.draws = s.draws ∧ ∀ addr len, s.latched.addr = addr → s.latched.len = len →
      ∀ b, addr.toNat ≤ b → b < addr.toNat + len.toNat →
        (b ∈ s'.raced ↔ b ∈ s.raced) ∧ (b ∉ s.raced → memRead s'.mem b = memRead s.mem b)) →
    exec i s = .next t →
    ∃ t', exec i s' = .next t' ∧ t'.status = t.status ∧ t'.result = t.result ∧ t'.rlen = t.rlen ∧
      t'.eaddr = t.eaddr ∧ t'.elen = t.elen ∧
      (i = .format → s'.mem = s.mem → s'.raced = s.raced → s'.draws = s.draws → t'.mem = t.mem)

/-- 20_memory.md R61: BUF_SIZE is a parameter, which the model carries in its state (log 3): no step changes it. -/
def Obligations.NoStepChangesBufSize : Prop :=
  ∀ s t : State, step s = .next t → t.bufSize = s.bufSize

/-- 10_state.md R49: the invariant holds after reset. -/
def Obligations.ResetStateMeetsTheInvariant : Prop :=
  State.Inv State.reset

/-- The invariant (BUF canonical and inside BUF_SIZE; STATUS a value some completion writes or the reset value; the
result registers as STATUS says; a command in progress with its ports driven; races inside its region) is kept by every
step, of the block, of the host and of reset. The list of raced bytes is the model's own (log 7). -/
def Obligations.EveryStepKeepsTheInvariant : Prop :=
  ∀ s t : State, s.Inv → step s = .next t → t.Inv

/-- 10_state.md R32, R45: UnwrittenPort has one cause, an issue with BUSY = 0 whose command reads a port that holds no
value: no completion and no other interaction of the host raises it. That it comes at the issue is the model's reading (log 12). -/
def Obligations.OnlyAnIssueRaisesUnwrittenPort : Prop :=
  ∀ (s : State) (p : PortName), step s = .fault (.unwrittenPort p) →
    ∃ cmd latency rest, s.agenda = .issue cmd latency :: rest ∧ s.busy = false ∧
      p ∈ commandReads cmd ∧ s.ports.holds p = false

/-! ## Primitives (00_scope.md) -/

/-- R11: roundHE gives the nearest integer, ties to the even one, and is symmetric. -/
def Obligations.RoundHalfEvenIsNearestAndSymmetric : Prop :=
  ∀ (n : ℤ) (d : ℕ), 0 < d → RoundsTo ((n : ℚ) / (d : ℚ)) (roundHE n d) ∧ roundHE (-n) d = -roundHE n d

/-- R12: digits is the number of base-10 digits, 1 for 0, and 19 at both 64-bit extremes. -/
def Obligations.DigitsCountsDecimalDigits : Prop :=
  (∀ m : ℤ, HasDigits m (digits m)) ∧ digits 0 = 1 ∧ digits (-9223372036854775808) = 19 ∧
    digits 9223372036854775807 = 19

/-- R14: strip removes all trailing zeros of a nonzero mantissa and keeps the value; of 0 it gives (0, 0). -/
def Obligations.StripKeepsTheValue : Prop :=
  (∀ e : ℤ, strip 0 e = (0, 0)) ∧
  (∀ m e : ℤ, m ≠ 0 → (strip m e).1 % 10 ≠ 0 ∧
    ((strip m e).1 : ℚ) * (10 : ℚ) ^ (-(strip m e).2) = (m : ℚ) * (10 : ℚ) ^ (-e))
end

