-- ==== Sys2Proof/Laws/Memory.lean ====
section
/-!
SUPPORT. BUF as a list of cells: a read after a write, and every memory operation keeps the canonical form. The raw
list lemmas carry a lower bound of the addresses; those about `Memory.wf` are what later proofs cite.
-/
namespace Sys2Proof.Machine

open Sys2Proof

/-! ## The canonical form -/

theorem memWfFrom_mono {lo lo' bound : Nat} {mem : List Host.Cell} (h : memWfFrom lo bound mem = true)
    (hlo : lo' ≤ lo) : memWfFrom lo' bound mem = true := by
  cases mem with
  | nil => rfl
  | cons c rest =>
    simp only [memWfFrom, Bool.and_eq_true, decide_eq_true_eq] at h ⊢
    exact ⟨⟨hlo.trans h.1.1, h.1.2⟩, h.2⟩

theorem memWfFrom_memWrite {bound a : Nat} {v : Byte} (ha : a < bound) :
    ∀ {lo : Nat} {mem : List Host.Cell}, lo ≤ a → memWfFrom lo bound mem = true →
      memWfFrom lo bound (memWrite mem a v) = true
  | lo, [], hlo, _ => by simp [memWrite, memWfFrom, hlo, ha]
  | lo, (b, u) :: rest, hlo, h => by
    simp only [memWfFrom, Bool.and_eq_true, decide_eq_true_eq] at h
    obtain ⟨⟨h1, h2⟩, h3⟩ := h
    unfold memWrite
    split
    · simp [memWfFrom, hlo, ha, h2, h3]; omega
    · split
      · subst a; simp [memWfFrom, h1, h2, h3]
      · simp only [memWfFrom, h1, h2, decide_true, Bool.and_self, Bool.true_and]
        exact memWfFrom_memWrite ha (by omega) h3

theorem wf_memWrite {bound a : Nat} {v : Byte} {mem : List Host.Cell} (ha : a < bound)
    (h : Memory.wf bound mem = true) : Memory.wf bound (memWrite mem a v) = true :=
  memWfFrom_memWrite ha (Nat.zero_le a) h

theorem wf_memWriteText {bound : Nat} :
    ∀ {t : List Byte} {mem : List Host.Cell} {a : Nat}, a + t.length ≤ bound → Memory.wf bound mem = true →
      Memory.wf bound (memWriteText mem a t) = true
  | [], _, _, _, h => h
  | v :: t, mem, a, ha, h => by
    simp only [List.length_cons] at ha
    exact wf_memWriteText (t := t) (by omega) (wf_memWrite (by omega) h)

theorem wf_memDrawRegion {bound : Nat} :
    ∀ {n : Nat} {mem : List Host.Cell} {a d : Nat}, a + n ≤ bound → Memory.wf bound mem = true →
      Memory.wf bound (memDrawRegion mem a n d) = true
  | 0, _, _, _, _, h => h
  | n + 1, mem, a, d, ha, h => wf_memDrawRegion (n := n) (by omega) (wf_memWrite (by omega) h)

theorem wf_memDrawList {bound : Nat} :
    ∀ {as : List Nat} {mem : List Host.Cell} {d : Nat}, (∀ a ∈ as, a < bound) → Memory.wf bound mem = true →
      Memory.wf bound (memDrawList mem as d) = true
  | [], _, _, _, h => h
  | a :: as, _, _, ha, h =>
    wf_memDrawList (as := as) (fun b hb => ha b (List.mem_cons_of_mem a hb))
      (wf_memWrite (ha a List.mem_cons_self) h)

/-- BUF after reset is in its canonical form. -/
theorem wf_reset : Memory.wf State.reset.bufSize.val State.reset.mem = true := rfl

/-! ## Reads after writes. They hold for every list, canonical or not, up to the order of its addresses. -/

theorem memRead_eq_none_of_lt {bound : Nat} :
    ∀ {lo : Nat} {mem : List Host.Cell} {a : Nat}, memWfFrom lo bound mem = true → a < lo → memRead mem a = none
  | _, [], _, _, _ => rfl
  | lo, (b, u) :: rest, a, h, ha => by
    simp only [memWfFrom, Bool.and_eq_true, decide_eq_true_eq] at h
    obtain ⟨⟨h1, _⟩, h3⟩ := h
    have hne : a ≠ b := by omega
    simp only [memRead, if_neg hne]
    exact memRead_eq_none_of_lt h3 (by omega)

@[simp] theorem memRead_memWrite_same (a : Nat) (v : Byte) :
    ∀ mem : List Host.Cell, memRead (memWrite mem a v) a = some v
  | [] => by simp [memWrite, memRead]
  | (b, u) :: rest => by
    unfold memWrite
    split
    · simp [memRead]
    · split
      · simp [memRead]
      · rename_i hne
        simp [memRead, hne, memRead_memWrite_same a v rest]

theorem memRead_memWrite_other {a b : Nat} (h : b ≠ a) (v : Byte) :
    ∀ mem : List Host.Cell, memRead (memWrite mem a v) b = memRead mem b
  | [] => by simp [memWrite, memRead, h]
  | (c, u) :: rest => by
    unfold memWrite
    split
    · simp [memRead, h]
    · split
      · rename_i hac
        subst hac
        simp [memRead, h]
      · simp only [memRead]
        split
        · rfl
        · exact memRead_memWrite_other h v rest

theorem memRead_memWrite (mem : List Host.Cell) (a b : Nat) (v : Byte) :
    memRead (memWrite mem a v) b = if b = a then some v else memRead mem b := by
  split
  · subst b; exact memRead_memWrite_same a v mem
  · exact memRead_memWrite_other (by assumption) v mem

/-- A read after a text has been written: the text's bytes in its region, the old bytes elsewhere. -/
theorem memRead_memWriteText :
    ∀ (t : List Byte) (mem : List Host.Cell) (a b : Nat),
      memRead (memWriteText mem a t) b = if a ≤ b ∧ b < a + t.length then t[b - a]? else memRead mem b
  | [], mem, a, b => by
    have : ¬(a ≤ b ∧ b < a) := by omega
    simp [memWriteText, this]
  | v :: t, mem, a, b => by
    rw [memWriteText, memRead_memWriteText t (memWrite mem a v) (a + 1) b, memRead_memWrite]
    simp only [List.length_cons]
    by_cases hb : b = a
    · subst b
      simp
    · by_cases hin : a + 1 ≤ b ∧ b < a + 1 + t.length
      · have hin' : a ≤ b ∧ b < a + (t.length + 1) := by omega
        rw [if_pos hin, if_pos hin', show b - a = (b - (a + 1)) + 1 by omega, List.getElem?_cons_succ]
      · have hin' : ¬(a ≤ b ∧ b < a + (t.length + 1)) := by omega
        rw [if_neg hin, if_neg hin', if_neg hb]

/-- A read after free bytes have been written over a region: the region's free bytes, the old bytes elsewhere. -/
theorem memRead_memDrawRegion :
    ∀ (n : Nat) (mem : List Host.Cell) (a d b : Nat),
      memRead (memDrawRegion mem a n d) b =
        if a ≤ b ∧ b < a + n then some (Config.freeByte (d + (b - a))) else memRead mem b
  | 0, mem, a, d, b => by
    have : ¬(a ≤ b ∧ b < a + 0) := by omega
    rw [if_neg this]; rfl
  | n + 1, mem, a, d, b => by
    rw [memDrawRegion, memRead_memDrawRegion n (memWrite mem a (Config.freeByte d)) (a + 1) (d + 1) b,
      memRead_memWrite]
    by_cases hb : b = a
    · subst b
      have h2 : a ≤ a ∧ a < a + (n + 1) := by omega
      simp [h2]
    · by_cases hin : a + 1 ≤ b ∧ b < a + 1 + n
      · have hin' : a ≤ b ∧ b < a + (n + 1) := by omega
        rw [if_pos hin, if_pos hin', show d + 1 + (b - (a + 1)) = d + (b - a) by omega]
      · have hin' : ¬(a ≤ b ∧ b < a + (n + 1)) := by omega
        rw [if_neg hin, if_neg hin', if_neg hb]

/-- Free bytes written at listed addresses leave every other byte as it was. -/
theorem memRead_memDrawList_other :
    ∀ (as : List Nat) (mem : List Host.Cell) (d b : Nat), b ∉ as →
      memRead (memDrawList mem as d) b = memRead mem b
  | [], _, _, _, _ => rfl
  | a :: as, mem, d, b, h => by
    simp only [List.mem_cons, not_or] at h
    rw [memDrawList, memRead_memDrawList_other as _ _ b h.2, memRead_memWrite_other h.1]

/-! ## What PARSE reads of its region (R64, R70) -/

/-- With no race, a region whose every byte holds a value reads as those bytes and draws nothing. -/
theorem readRegion_ok (mem : List Host.Cell) (d : Nat) :
    ∀ (t : List Byte) (a : Nat), (∀ i, i < t.length → memRead mem (a + i) = t[i]?) →
      readRegion mem [] a t.length d = .ok (t, d)
  | [], _, _ => rfl
  | v :: t, a, h => by
    have h0 : memRead mem a = some v := by simpa using h 0 (by simp)
    have ih := readRegion_ok mem d t (a + 1) fun i hi => by
      have := h (i + 1) (by simpa using hi)
      simpa [Nat.add_assoc, Nat.add_comm 1 i] using this
    simp [readRegion, h0, ih]

/-- What a region reads as depends only on which of its bytes were raced and on its other bytes. -/
theorem readRegion_congr {mem mem' : List Host.Cell} {raced raced' : List Nat} :
    ∀ {n a d : Nat}, (∀ b, a ≤ b → b < a + n →
      (b ∈ raced' ↔ b ∈ raced) ∧ (b ∉ raced → memRead mem' b = memRead mem b)) →
      readRegion mem' raced' a n d = readRegion mem raced a n d
  | 0, _, _, _ => rfl
  | n + 1, a, d, h => by
    have h0 := h a (le_refl a) (by omega)
    have ih : ∀ d, readRegion mem' raced' (a + 1) n d = readRegion mem raced (a + 1) n d := fun d =>
      readRegion_congr fun b h1 h2 => h b (by omega) (by omega)
    unfold readRegion
    by_cases ha : a ∈ raced
    · rw [if_pos ha, if_pos (h0.1.mpr ha), ih]
    · rw [if_neg ha, if_neg (fun hc => ha (h0.1.mp hc)), h0.2 ha, ih]

/-- With no race, the first byte that holds no value is what the read reports. -/
theorem readRegion_error (mem : List Host.Cell) (d : Nat) :
    ∀ (n a k : Nat), k < n → (∀ i, i < k → (memRead mem (a + i)).isSome = true) → memRead mem (a + k) = none →
      readRegion mem [] a n d = .error (a + k)
  | 0, _, k, hk, _, _ => by omega
  | n + 1, a, 0, _, _, hnone => by
    have hnone' : memRead mem a = none := hnone
    simp [readRegion, hnone']
  | n + 1, a, k + 1, hk, hsome, hnone => by
    have h0 := hsome 0 (by omega)
    simp only [Nat.add_zero] at h0
    obtain ⟨v, hv⟩ := Option.isSome_iff_exists.mp h0
    have ih := readRegion_error mem d n (a + 1) k (by omega)
      (fun i hi => by simpa [Nat.add_assoc, Nat.add_comm 1 i] using hsome (i + 1) (by omega))
      (by simpa [Nat.add_assoc, Nat.add_comm 1 k] using hnone)
    have hk' : a + 1 + k = a + (k + 1) := by omega
    simp [readRegion, hv, ih, hk']

end Sys2Proof.Machine
end

