-- ==== Sys2Proof/Laws/State.lean ====
section
/-!
SUPPORT. One lemma per field and update of State: what each named update makes of each field. With them no later proof
unfolds a record update.
-/
namespace Sys2Proof.Machine

open Sys2Proof

/-! ## The completion of R304 -/

@[simp] theorem State.finish_ports (s : State) (c : Code) (r : Option Word) (n ea el : Option Half) :
    (s.finish c r n ea el).ports = s.ports := rfl

@[simp] theorem State.finish_latched (s : State) (c : Code) (r : Option Word) (n ea el : Option Half) :
    (s.finish c r n ea el).latched = s.latched := rfl

@[simp] theorem State.finish_result (s : State) (c : Code) (r : Option Word) (n ea el : Option Half) :
    (s.finish c r n ea el).result = r := rfl

@[simp] theorem State.finish_rlen (s : State) (c : Code) (r : Option Word) (n ea el : Option Half) :
    (s.finish c r n ea el).rlen = n := rfl

@[simp] theorem State.finish_status (s : State) (c : Code) (r : Option Word) (n ea el : Option Half) :
    (s.finish c r n ea el).status = statusByte c := rfl

@[simp] theorem State.finish_eaddr (s : State) (c : Code) (r : Option Word) (n ea el : Option Half) :
    (s.finish c r n ea el).eaddr = ea := rfl

@[simp] theorem State.finish_elen (s : State) (c : Code) (r : Option Word) (n ea el : Option Half) :
    (s.finish c r n ea el).elen = el := rfl

@[simp] theorem State.finish_busy (s : State) (c : Code) (r : Option Word) (n ea el : Option Half) :
    (s.finish c r n ea el).busy = false := rfl

@[simp] theorem State.finish_wait (s : State) (c : Code) (r : Option Word) (n ea el : Option Half) :
    (s.finish c r n ea el).wait = s.wait := rfl

@[simp] theorem State.finish_mem (s : State) (c : Code) (r : Option Word) (n ea el : Option Half) :
    (s.finish c r n ea el).mem = s.mem := rfl

@[simp] theorem State.finish_bufSize (s : State) (c : Code) (r : Option Word) (n ea el : Option Half) :
    (s.finish c r n ea el).bufSize = s.bufSize := rfl

@[simp] theorem State.finish_raced (s : State) (c : Code) (r : Option Word) (n ea el : Option Half) :
    (s.finish c r n ea el).raced = [] := rfl

@[simp] theorem State.finish_draws (s : State) (c : Code) (r : Option Word) (n ea el : Option Half) :
    (s.finish c r n ea el).draws = s.draws := rfl

@[simp] theorem State.finish_agenda (s : State) (c : Code) (r : Option Word) (n ea el : Option Half) :
    (s.finish c r n ea el).agenda = s.agenda := rfl

@[simp] theorem State.finish_seen (s : State) (c : Code) (r : Option Word) (n ea el : Option Half) :
    (s.finish c r n ea el).seen = s.seen := rfl

/-! ## The issue of R300 -/

@[simp] theorem State.issued_ports (s : State) (cmd : Half) (latency : Nat) :
    (s.issued cmd latency).ports = { s.ports with cmd := some cmd } := rfl

@[simp] theorem State.issued_latched (s : State) (cmd : Half) (latency : Nat) :
    (s.issued cmd latency).latched = latchPorts s.latched s.ports cmd := rfl

@[simp] theorem State.issued_result (s : State) (cmd : Half) (latency : Nat) :
    (s.issued cmd latency).result = s.result := rfl

@[simp] theorem State.issued_rlen (s : State) (cmd : Half) (latency : Nat) :
    (s.issued cmd latency).rlen = s.rlen := rfl

@[simp] theorem State.issued_status (s : State) (cmd : Half) (latency : Nat) :
    (s.issued cmd latency).status = s.status := rfl

@[simp] theorem State.issued_eaddr (s : State) (cmd : Half) (latency : Nat) :
    (s.issued cmd latency).eaddr = s.eaddr := rfl

@[simp] theorem State.issued_elen (s : State) (cmd : Half) (latency : Nat) :
    (s.issued cmd latency).elen = s.elen := rfl

@[simp] theorem State.issued_busy (s : State) (cmd : Half) (latency : Nat) :
    (s.issued cmd latency).busy = true := rfl

@[simp] theorem State.issued_wait (s : State) (cmd : Half) (latency : Nat) :
    (s.issued cmd latency).wait = latency := rfl

@[simp] theorem State.issued_mem (s : State) (cmd : Half) (latency : Nat) :
    (s.issued cmd latency).mem = s.mem := rfl

@[simp] theorem State.issued_bufSize (s : State) (cmd : Half) (latency : Nat) :
    (s.issued cmd latency).bufSize = s.bufSize := rfl

@[simp] theorem State.issued_raced (s : State) (cmd : Half) (latency : Nat) :
    (s.issued cmd latency).raced = [] := rfl

@[simp] theorem State.issued_draws (s : State) (cmd : Half) (latency : Nat) :
    (s.issued cmd latency).draws = s.draws := rfl

@[simp] theorem State.issued_agenda (s : State) (cmd : Half) (latency : Nat) :
    (s.issued cmd latency).agenda = s.agenda := rfl

@[simp] theorem State.issued_seen (s : State) (cmd : Half) (latency : Nat) :
    (s.issued cmd latency).seen = s.seen := rfl

/-! ## The reset of R340 -/

@[simp] theorem State.resetRegisters_ports (s : State) :
    (s.resetRegisters).ports = Ports.undriven := rfl

@[simp] theorem State.resetRegisters_latched (s : State) :
    (s.resetRegisters).latched = Latches.cleared := rfl

@[simp] theorem State.resetRegisters_result (s : State) :
    (s.resetRegisters).result = none := rfl

@[simp] theorem State.resetRegisters_rlen (s : State) :
    (s.resetRegisters).rlen = none := rfl

@[simp] theorem State.resetRegisters_status (s : State) :
    (s.resetRegisters).status = 0x00#8 := rfl

@[simp] theorem State.resetRegisters_eaddr (s : State) :
    (s.resetRegisters).eaddr = none := rfl

@[simp] theorem State.resetRegisters_elen (s : State) :
    (s.resetRegisters).elen = none := rfl

@[simp] theorem State.resetRegisters_busy (s : State) :
    (s.resetRegisters).busy = false := rfl

@[simp] theorem State.resetRegisters_wait (s : State) :
    (s.resetRegisters).wait = 0 := rfl

@[simp] theorem State.resetRegisters_mem (s : State) :
    (s.resetRegisters).mem = s.mem := rfl

@[simp] theorem State.resetRegisters_bufSize (s : State) :
    (s.resetRegisters).bufSize = s.bufSize := rfl

@[simp] theorem State.resetRegisters_raced (s : State) :
    (s.resetRegisters).raced = [] := rfl

@[simp] theorem State.resetRegisters_draws (s : State) :
    (s.resetRegisters).draws = s.draws := rfl

@[simp] theorem State.resetRegisters_agenda (s : State) :
    (s.resetRegisters).agenda = s.agenda := rfl

@[simp] theorem State.resetRegisters_seen (s : State) :
    (s.resetRegisters).seen = s.seen := rfl

/-! ## A host read that draws (R71) -/

@[simp] theorem State.seeFree_ports (s : State) (a : Half) :
    (s.seeFree a).ports = s.ports := rfl

@[simp] theorem State.seeFree_latched (s : State) (a : Half) :
    (s.seeFree a).latched = s.latched := rfl

@[simp] theorem State.seeFree_result (s : State) (a : Half) :
    (s.seeFree a).result = s.result := rfl

@[simp] theorem State.seeFree_rlen (s : State) (a : Half) :
    (s.seeFree a).rlen = s.rlen := rfl

@[simp] theorem State.seeFree_status (s : State) (a : Half) :
    (s.seeFree a).status = s.status := rfl

@[simp] theorem State.seeFree_eaddr (s : State) (a : Half) :
    (s.seeFree a).eaddr = s.eaddr := rfl

@[simp] theorem State.seeFree_elen (s : State) (a : Half) :
    (s.seeFree a).elen = s.elen := rfl

@[simp] theorem State.seeFree_busy (s : State) (a : Half) :
    (s.seeFree a).busy = s.busy := rfl

@[simp] theorem State.seeFree_wait (s : State) (a : Half) :
    (s.seeFree a).wait = s.wait := rfl

@[simp] theorem State.seeFree_mem (s : State) (a : Half) :
    (s.seeFree a).mem = s.mem := rfl

@[simp] theorem State.seeFree_bufSize (s : State) (a : Half) :
    (s.seeFree a).bufSize = s.bufSize := rfl

@[simp] theorem State.seeFree_raced (s : State) (a : Half) :
    (s.seeFree a).raced = s.raced := rfl

@[simp] theorem State.seeFree_draws (s : State) (a : Half) :
    (s.seeFree a).draws = s.draws + 1 := rfl

@[simp] theorem State.seeFree_agenda (s : State) (a : Half) :
    (s.seeFree a).agenda = s.agenda := rfl

@[simp] theorem State.seeFree_seen (s : State) (a : Half) :
    (s.seeFree a).seen = .buf a (Config.freeByte s.draws) :: s.seen := rfl

/-! ## Draws over BUF (R71, R257) -/

@[simp] theorem State.raceWrite_ports (s : State) (a : Nat) :
    (s.raceWrite a).ports = s.ports := rfl

@[simp] theorem State.raceWrite_latched (s : State) (a : Nat) :
    (s.raceWrite a).latched = s.latched := rfl

@[simp] theorem State.raceWrite_result (s : State) (a : Nat) :
    (s.raceWrite a).result = s.result := rfl

@[simp] theorem State.raceWrite_rlen (s : State) (a : Nat) :
    (s.raceWrite a).rlen = s.rlen := rfl

@[simp] theorem State.raceWrite_status (s : State) (a : Nat) :
    (s.raceWrite a).status = s.status := rfl

@[simp] theorem State.raceWrite_eaddr (s : State) (a : Nat) :
    (s.raceWrite a).eaddr = s.eaddr := rfl

@[simp] theorem State.raceWrite_elen (s : State) (a : Nat) :
    (s.raceWrite a).elen = s.elen := rfl

@[simp] theorem State.raceWrite_busy (s : State) (a : Nat) :
    (s.raceWrite a).busy = s.busy := rfl

@[simp] theorem State.raceWrite_wait (s : State) (a : Nat) :
    (s.raceWrite a).wait = s.wait := rfl

@[simp] theorem State.raceWrite_mem (s : State) (a : Nat) :
    (s.raceWrite a).mem = memWrite s.mem a (Config.freeByte s.draws) := rfl

@[simp] theorem State.raceWrite_bufSize (s : State) (a : Nat) :
    (s.raceWrite a).bufSize = s.bufSize := rfl

@[simp] theorem State.raceWrite_raced (s : State) (a : Nat) :
    (s.raceWrite a).raced = if a ∈ s.raced then s.raced else a :: s.raced := rfl

@[simp] theorem State.raceWrite_draws (s : State) (a : Nat) :
    (s.raceWrite a).draws = s.draws + 1 := rfl

@[simp] theorem State.raceWrite_agenda (s : State) (a : Nat) :
    (s.raceWrite a).agenda = s.agenda := rfl

@[simp] theorem State.raceWrite_seen (s : State) (a : Nat) :
    (s.raceWrite a).seen = s.seen := rfl

@[simp] theorem State.settleRaces_ports (s : State) :
    (s.settleRaces).ports = s.ports := rfl

@[simp] theorem State.settleRaces_latched (s : State) :
    (s.settleRaces).latched = s.latched := rfl

@[simp] theorem State.settleRaces_result (s : State) :
    (s.settleRaces).result = s.result := rfl

@[simp] theorem State.settleRaces_rlen (s : State) :
    (s.settleRaces).rlen = s.rlen := rfl

@[simp] theorem State.settleRaces_status (s : State) :
    (s.settleRaces).status = s.status := rfl

@[simp] theorem State.settleRaces_eaddr (s : State) :
    (s.settleRaces).eaddr = s.eaddr := rfl

@[simp] theorem State.settleRaces_elen (s : State) :
    (s.settleRaces).elen = s.elen := rfl

@[simp] theorem State.settleRaces_busy (s : State) :
    (s.settleRaces).busy = s.busy := rfl

@[simp] theorem State.settleRaces_wait (s : State) :
    (s.settleRaces).wait = s.wait := rfl

@[simp] theorem State.settleRaces_mem (s : State) :
    (s.settleRaces).mem = memDrawList s.mem s.raced s.draws := rfl

@[simp] theorem State.settleRaces_bufSize (s : State) :
    (s.settleRaces).bufSize = s.bufSize := rfl

@[simp] theorem State.settleRaces_raced (s : State) :
    (s.settleRaces).raced = s.raced := rfl

@[simp] theorem State.settleRaces_draws (s : State) :
    (s.settleRaces).draws = s.draws + s.raced.length := rfl

@[simp] theorem State.settleRaces_agenda (s : State) :
    (s.settleRaces).agenda = s.agenda := rfl

@[simp] theorem State.settleRaces_seen (s : State) :
    (s.settleRaces).seen = s.seen := rfl

@[simp] theorem State.drawRegion_ports (s : State) (a n : Nat) :
    (s.drawRegion a n).ports = s.ports := rfl

@[simp] theorem State.drawRegion_latched (s : State) (a n : Nat) :
    (s.drawRegion a n).latched = s.latched := rfl

@[simp] theorem State.drawRegion_result (s : State) (a n : Nat) :
    (s.drawRegion a n).result = s.result := rfl

@[simp] theorem State.drawRegion_rlen (s : State) (a n : Nat) :
    (s.drawRegion a n).rlen = s.rlen := rfl

@[simp] theorem State.drawRegion_status (s : State) (a n : Nat) :
    (s.drawRegion a n).status = s.status := rfl

@[simp] theorem State.drawRegion_eaddr (s : State) (a n : Nat) :
    (s.drawRegion a n).eaddr = s.eaddr := rfl

@[simp] theorem State.drawRegion_elen (s : State) (a n : Nat) :
    (s.drawRegion a n).elen = s.elen := rfl

@[simp] theorem State.drawRegion_busy (s : State) (a n : Nat) :
    (s.drawRegion a n).busy = s.busy := rfl

@[simp] theorem State.drawRegion_wait (s : State) (a n : Nat) :
    (s.drawRegion a n).wait = s.wait := rfl

@[simp] theorem State.drawRegion_mem (s : State) (a n : Nat) :
    (s.drawRegion a n).mem = memDrawRegion s.mem a n s.draws := rfl

@[simp] theorem State.drawRegion_bufSize (s : State) (a n : Nat) :
    (s.drawRegion a n).bufSize = s.bufSize := rfl

@[simp] theorem State.drawRegion_raced (s : State) (a n : Nat) :
    (s.drawRegion a n).raced = s.raced := rfl

@[simp] theorem State.drawRegion_draws (s : State) (a n : Nat) :
    (s.drawRegion a n).draws = s.draws + n := rfl

@[simp] theorem State.drawRegion_agenda (s : State) (a n : Nat) :
    (s.drawRegion a n).agenda = s.agenda := rfl

@[simp] theorem State.drawRegion_seen (s : State) (a n : Nat) :
    (s.drawRegion a n).seen = s.seen := rfl

end Sys2Proof.Machine
end

