-- ==== Sys2Proof/Laws/Ops.lean ====
section
/-!
SUPPORT. One lemma per shared operation of Machine/Ops.lean: what it answers, forward from hypotheses on the operands and
backward from an answer. Proofs about commands cite these and unfold no operation.
-/
namespace Sys2Proof.Machine

open Sys2Proof

/-! ## Operand admission -/

/-- Admission either goes on or faults, by whether the word is canonical. -/
theorem requireCanonical_cases (w : Word) (k : Answer) :
    (canonical w = true ∧ requireCanonical w k = k) ∨
      (canonical w = false ∧ requireCanonical w k = .fault (.nonCanonicalOperand w)) := by
  unfold requireCanonical; cases canonical w <;> simp

@[simp] theorem requireCanonical_of {w : Word} (k : Answer) (h : canonical w = true) :
    requireCanonical w k = k := by simp [requireCanonical, h]

@[simp] theorem requireCanonical_not {w : Word} (k : Answer) (h : canonical w = false) :
    requireCanonical w k = .fault (.nonCanonicalOperand w) := by simp [requireCanonical, h]

/-! ## Completions -/

/-- A success leaves the state R304 gives. -/
theorem succeed_eq (s : State) (w : Word) : succeed s w = .next (afterOk s w) := rfl

theorem raise_typeError (s : State) : raise s .typeError = .next (afterError s 0x02#8) := rfl

theorem raise_invalidValue (s : State) : raise s .invalidValue = .next (afterError s 0x03#8) := rfl

theorem raise_boundsError (s : State) : raise s .boundsError = .next (afterError s 0x04#8) := rfl

theorem raise_illegalCommand (s : State) : raise s .illegalCommand = .next (afterError s 0x05#8) := rfl

theorem raiseFormatError_eq (s : State) (addr len : Half) :
    raiseFormatError s addr len = .next (afterFormatError s addr len) := rfl

/-- An OK completion of FORMAT leaves the state R304 gives. -/
theorem succeedFormat_eq (s : State) (n : Nat) :
    ∃ t, succeedFormat s n = .next t ∧ afterFormat s n t ∧ t.mem = s.mem ∧ t.draws = s.draws :=
  ⟨s.finish .ok none (some (BitVec.ofNat 32 n)) none none, rfl, rfl, rfl, rfl⟩

/-! ## Commands on word operands -/

/-- A one-operand command on a canonical word completes with its function's value. -/
theorem unaryWord_completes {s : State} {a : Word} (f : Word → Word) (ha : s.latched.opa = a)
    (ca : canonical a = true) : unaryWord s f = .next (afterOk s (f a)) := by
  simp [unaryWord, ha, ca, succeed_eq]

/-- A two-operand command on canonical words completes with its function's value. -/
theorem binaryWord_completes {s : State} {a b : Word} (f : Word → Word → Word) (ha : s.latched.opa = a)
    (hb : s.latched.opb = b) (ca : canonical a = true) (cb : canonical b = true) :
    binaryWord s f = .next (afterOk s (f a b)) := by
  simp [binaryWord, ha, hb, ca, cb, succeed_eq]

/-- All that a one-operand command can answer. -/
theorem unaryWord_cases (s : State) (f : Word → Word) :
    (canonical s.latched.opa = true ∧ unaryWord s f = .next (afterOk s (f s.latched.opa))) ∨
    (canonical s.latched.opa = false ∧ unaryWord s f = .fault (.nonCanonicalOperand s.latched.opa)) :=
  requireCanonical_cases _ _

/-- All that a two-operand command can answer. -/
theorem binaryWord_cases (s : State) (f : Word → Word → Word) :
    (canonical s.latched.opa = true ∧ canonical s.latched.opb = true ∧
      binaryWord s f = .next (afterOk s (f s.latched.opa s.latched.opb))) ∨
    (∃ w, (s.latched.opa = w ∨ s.latched.opb = w) ∧ canonical w = false ∧
      binaryWord s f = .fault (.nonCanonicalOperand w)) := by
  unfold binaryWord
  rcases requireCanonical_cases s.latched.opa _ with ⟨ca, e⟩ | ⟨ca, e⟩ <;> rw [e]
  · rcases requireCanonical_cases s.latched.opb _ with ⟨cb, e'⟩ | ⟨cb, e'⟩ <;> rw [e']
    · exact .inl ⟨ca, cb, rfl⟩
    · exact .inr ⟨_, .inr rfl, cb, rfl⟩
  · exact .inr ⟨_, .inl rfl, ca, rfl⟩

end Sys2Proof.Machine
end

