-- ==== Sys2Proof/Laws/Exec.lean ====
section
/-!
SUPPORT. Everything a completion can answer with a next state, said once over all commands: which of the states of
60_exceptions.md R304 it leaves. Invariants and whole-machine rules follow from it with no command unfolded.
-/
namespace Sys2Proof.Machine

open Sys2Proof

/-- A read of a region draws bytes, or none. -/
theorem readRegion_draws (mem : List Host.Cell) (raced : List Nat) :
    ∀ (n a d : Nat) (t : List Byte) (d' : Nat), readRegion mem raced a n d = .ok (t, d') → d ≤ d'
  | 0, _, d, t, d', h => by
    simp only [readRegion, Except.ok.injEq, Prod.mk.injEq] at h
    omega
  | n + 1, a, d, t, d', h => by
    unfold readRegion at h
    split at h
    · split at h
      · rename_i t' d'' e
        have := readRegion_draws mem raced n _ _ t' d'' e
        simp only [Except.ok.injEq, Prod.mk.injEq] at h
        omega
      · cases h
    · split at h
      · cases h
      · split at h
        · rename_i t' d'' e
          have := readRegion_draws mem raced n _ _ t' d'' e
          simp only [Except.ok.injEq, Prod.mk.injEq] at h
          omega
        · cases h

/-- A region inside BUF ends at or below BUF_SIZE. -/
theorem regionInside_le {s : State} {addr len : Half} (h : regionInside s addr len = true) :
    unsigned32 addr + unsigned32 len ≤ s.bufSize.val := by
  simpa [regionInside] using h

/-- A PARSE whose region could be read completes with the word of what it read, or with FORMAT_ERROR. -/
theorem execParse_of_read {s : State} {t : List Byte} {d : Nat}
    (hin : regionInside s s.latched.addr s.latched.len = true)
    (hr : readRegion s.mem s.raced (unsigned32 s.latched.addr) (unsigned32 s.latched.len) s.draws = .ok (t, d)) :
    execParse s = .next (match parseText t with
      | some w => afterOk { s with draws := d } w
      | none => afterFormatError { s with draws := d } s.latched.addr s.latched.len) := by
  simp only [execParse, hin, if_true, hr]
  cases parseText t <;> rfl

/-- The states a completion of `i` can leave: an OK with a RESULT, an error, a FORMAT_ERROR, or the end of a FORMAT. -/
def CompletesTo (i : Instr) (s t : State) : Prop :=
  (i ≠ .format ∧ ∃ w d, t = afterOk { s with draws := d } w ∧ s.draws ≤ d ∧ (i ≠ .parse → d = s.draws)) ∨
  (∃ st, t = afterError s st ∧
    ((st = 0x03#8 ∧ (i = .validate ∨ i = .validateFinite)) ∨ (st = 0x02#8 ∧ i = .round) ∨
      (st = 0x04#8 ∧ i = .parse))) ∨
  (i = .parse ∧ ∃ addr len d, t = afterFormatError { s with draws := d } addr len ∧ s.draws ≤ d) ∨
  (i = .format ∧ ∃ mem d, s.draws ≤ d ∧
    (Memory.wf s.bufSize.val s.mem = true → (∀ a ∈ s.raced, a < s.bufSize.val) →
      Memory.wf s.bufSize.val mem = true) ∧
    (t = afterError { s with mem := mem, draws := d } 0x04#8 ∨
      ∃ n, afterFormat s n t ∧ t.mem = mem ∧ t.draws = d))

/-- An OK completion with no draw is one of the states of `CompletesTo`. -/
theorem CompletesTo.ok {i : Instr} {s t : State} {w : Word} (hi : i ≠ .format) (h : t = afterOk s w) :
    CompletesTo i s t :=
  .inl ⟨hi, w, s.draws, h, le_refl _, fun _ => rfl⟩

theorem succeed_next {i : Instr} {s t : State} {w : Word} (hi : i ≠ .format) (h : succeed s w = .next t) :
    CompletesTo i s t := by
  cases h
  exact .ok hi rfl

theorem unaryWord_next {i : Instr} {s t : State} (f : Word → Word) (hi : i ≠ .format)
    (h : unaryWord s f = .next t) : CompletesTo i s t := by
  rcases unaryWord_cases s f with ⟨-, e⟩ | ⟨-, e⟩ <;> rw [e] at h <;> cases h
  exact .ok hi rfl

theorem binaryWord_next {i : Instr} {s t : State} (f : Word → Word → Word) (hi : i ≠ .format)
    (h : binaryWord s f = .next t) : CompletesTo i s t := by
  rcases binaryWord_cases s f with ⟨-, -, e⟩ | ⟨w, -, -, e⟩ <;> rw [e] at h <;> cases h
  exact .ok hi rfl

theorem requireCanonical_next {t : State} {w : Word} {k : Answer} (h : requireCanonical w k = .next t) :
    canonical w = true ∧ k = .next t := by
  rcases requireCanonical_cases w k with ⟨hc, e⟩ | ⟨-, e⟩ <;> rw [e] at h
  · exact ⟨hc, h⟩
  · cases h

theorem execRound_next {s t : State} (h : execRound s = .next t) : CompletesTo .round s t := by
  obtain ⟨-, h⟩ := requireCanonical_next h
  split at h <;> cases h
  · exact .ok (by decide) rfl
  · exact .inr (.inl ⟨0x02#8, rfl, .inr (.inl ⟨rfl, rfl⟩)⟩)

theorem execParse_next {s t : State} (h : execParse s = .next t) : CompletesTo .parse s t := by
  unfold execParse at h
  split at h
  · split at h
    · cases h
    · rename_i u d e
      have hd := readRegion_draws _ _ _ _ _ _ _ e
      split at h <;> cases h
      · exact .inl ⟨by decide, _, d, rfl, hd, fun hp => absurd rfl hp⟩
      · exact .inr (.inr (.inl ⟨rfl, _, _, d, rfl, hd⟩))
  · cases h
    exact .inr (.inl ⟨0x04#8, rfl, .inr (.inr ⟨rfl, rfl⟩)⟩)

theorem execFormat_next {s t : State} (h : execFormat s = .next t) : CompletesTo .format s t := by
  obtain ⟨-, h⟩ := requireCanonical_next h
  refine .inr (.inr (.inr ⟨rfl, ?_⟩))
  split at h
  · rename_i hreg
    have hle := regionInside_le hreg
    split at h <;> cases h
    · exact ⟨_, s.draws + s.raced.length, by omega,
        fun hm hr => wf_memDrawList hr (wf_memWriteText (by omega) hm), .inr ⟨_, rfl, rfl, rfl⟩⟩
    · exact ⟨_, s.draws + unsigned32 s.latched.len + s.raced.length, by omega,
        fun hm hr => wf_memDrawList hr (wf_memDrawRegion hle hm), .inl rfl⟩
  · cases h
    exact ⟨_, s.draws + s.raced.length, by omega, fun hm hr => wf_memDrawList hr hm, .inl rfl⟩

theorem execValidate_next {s t : State} (h : execValidate s = .next t) : CompletesTo .validate s t := by
  unfold execValidate at h
  split at h
  · exact succeed_next (by decide) h
  · cases h; exact .inr (.inl ⟨0x03#8, rfl, .inl ⟨rfl, .inl rfl⟩⟩)

theorem execValidateFinite_next {s t : State} (h : execValidateFinite s = .next t) :
    CompletesTo .validateFinite s t := by
  unfold execValidateFinite at h
  split at h
  · exact succeed_next (by decide) h
  · cases h; exact .inr (.inl ⟨0x03#8, rfl, .inl ⟨rfl, .inr rfl⟩⟩)

/-- What every completion that answers a next state leaves. -/
theorem exec_next {i : Instr} {s t : State} (h : exec i s = .next t) : CompletesTo i s t := by
  cases i with
  | pack => exact succeed_next (w := pack _ _) (by decide) h
  | unpackM => exact succeed_next (w := word64 _) (by decide) h
  | unpackE => exact succeed_next (w := word64 _) (by decide) h
  | isFinite => exact succeed_next (w := word64 _) (by decide) h
  | fromParts => exact succeed_next (w := canon _) (by decide) h
  | validate => exact execValidate_next h
  | validateFinite => exact execValidateFinite_next h
  | add => exact binaryWord_next addWords (by decide) h
  | sub => exact binaryWord_next (fun a b => addWords a (negWord b)) (by decide) h
  | neg => exact unaryWord_next negWord (by decide) h
  | abs => exact unaryWord_next absWord (by decide) h
  | mul => exact binaryWord_next mulWords (by decide) h
  | div => exact binaryWord_next divWords (by decide) h
  | round => exact execRound_next h
  | cmp => exact binaryWord_next (fun a b => word64 (compareWords a b)) (by decide) h
  | min => exact binaryWord_next (fun a b => if compareWords a b ≤ 0 then a else b) (by decide) h
  | max => exact binaryWord_next (fun a b => if 0 ≤ compareWords a b then a else b) (by decide) h
  | eq => exact binaryWord_next (fun a b => word64 (if compareWords a b = 0 then 1 else 0)) (by decide) h
  | parse => exact execParse_next h
  | format => exact execFormat_next h

end Sys2Proof.Machine
end

