-- ==== Sys2Proof/Laws/HostPort.lean ====
section
/-!
SUPPORT. What each operation of the block's interface to the host can answer: an issue, a host access to BUF, and the
canonical form of BUF after a race and a reset.
-/
namespace Sys2Proof.Machine

open Sys2Proof

/-- All that an issue with BUSY = 0 can answer: the fault of a port that is read and holds no value, or the issue. -/
theorem issueCommand_cases (s : State) (cmd : Half) (latency : Nat) :
    (∃ n ∈ commandReads cmd, s.ports.holds n = false ∧ issueCommand s cmd latency = .fault (.unwrittenPort n)) ∨
      ((∀ n ∈ commandReads cmd, s.ports.holds n = true) ∧
        issueCommand s cmd latency = .next (s.issued cmd latency)) := by
  unfold issueCommand
  split
  · rename_i n h
    exact .inl ⟨n, List.mem_of_find?_eq_some h, by simpa using List.find?_some h, rfl⟩
  · rename_i h
    exact .inr ⟨by simpa using h, rfl⟩

/-- A latch whose port the command reads takes the port's value (R300). -/
theorem sampled_of_mem {α : Type} {reads : List PortName} {n : PortName} (held : α) {v : Option α} {x : α}
    (h : n ∈ reads) (hv : v = some x) : sampled reads n held v = x := by
  simp [sampled, h, hv]

/-- A latch whose port the command does not read keeps what it held. -/
theorem sampled_of_not_mem {α : Type} {reads : List PortName} {n : PortName} (held : α) (v : Option α)
    (h : n ∉ reads) : sampled reads n held v = held := by
  simp [sampled, h]

@[simp] theorem hostReadRegister_some {α : Type} (s : State) (r : ResultName) (x : α) (reading : α → Reading) :
    hostReadRegister s r (some x) reading = .next { s with seen := reading x :: s.seen } := rfl

@[simp] theorem hostReadRegister_none {α : Type} (s : State) (r : ResultName) (reading : α → Reading) :
    hostReadRegister s r none reading = .fault (.unwrittenRegister r) := rfl

/-- All that a host read of a result register can answer: its value, or the fault while it holds none. -/
theorem hostReadRegister_cases {α : Type} (s : State) (r : ResultName) (v : Option α) (reading : α → Reading) :
    (∃ x, v = some x ∧ hostReadRegister s r v reading = .next { s with seen := reading x :: s.seen }) ∨
      (v = none ∧ hostReadRegister s r v reading = .fault (.unwrittenRegister r)) := by
  cases v with
  | none => exact .inr ⟨rfl, rfl⟩
  | some x => exact .inl ⟨x, rfl, rfl⟩

/-- A host write races exactly when a PARSE or FORMAT is in progress whose region holds the byte (R71). -/
theorem writeRaces_iff (s : State) (a : Nat) :
    s.writeRaces a = true ↔
      (s.inProgress = some .parse ∨ s.inProgress = some .format) ∧ s.inLatchedRegion a = true := by
  simp [State.writeRaces]

/-- A host read races exactly when a FORMAT is in progress whose region holds the byte (R71). -/
theorem readRaces_iff (s : State) (a : Nat) :
    s.readRaces a = true ↔ s.inProgress = some .format ∧ s.inLatchedRegion a = true := by
  simp [State.readRaces]

/-- All that a host write of BUF can answer. -/
theorem hostWriteBuf_cases (s : State) (a : Half) (v : Byte) :
    (s.bufSize.val ≤ a.toNat ∧ hostWriteBuf s a v = .fault (.outsideBuffer a.toNat)) ∨
    (a.toNat < s.bufSize.val ∧ s.writeRaces a.toNat = true ∧ hostWriteBuf s a v = .next (s.raceWrite a.toNat)) ∨
    (a.toNat < s.bufSize.val ∧ s.writeRaces a.toNat = false ∧
      hostWriteBuf s a v = .next { s with mem := memWrite s.mem a.toNat v }) := by
  unfold hostWriteBuf unsigned32
  split
  · split
    · exact .inr (.inl ⟨‹_›, ‹_›, rfl⟩)
    · exact .inr (.inr ⟨‹_›, Bool.eq_false_iff.mpr ‹_›, rfl⟩)
  · exact .inl ⟨by omega, rfl⟩

/-- All that a host read of BUF can answer. -/
theorem hostReadBuf_cases (s : State) (a : Half) :
    (s.bufSize.val ≤ a.toNat ∧ hostReadBuf s a = .fault (.outsideBuffer a.toNat)) ∨
    (a.toNat < s.bufSize.val ∧ (s.readRaces a.toNat = true ∨ memRead s.mem a.toNat = none) ∧
      hostReadBuf s a = .next (s.seeFree a)) ∨
    (a.toNat < s.bufSize.val ∧ s.readRaces a.toNat = false ∧
      ∃ v, memRead s.mem a.toNat = some v ∧ hostReadBuf s a = .next { s with seen := .buf a v :: s.seen }) := by
  unfold hostReadBuf unsigned32
  split
  · split
    · exact .inr (.inl ⟨‹_›, .inl ‹_›, rfl⟩)
    · cases h : memRead s.mem a.toNat with
      | none => exact .inr (.inl ⟨‹_›, .inr rfl, rfl⟩)
      | some v => exact .inr (.inr ⟨‹_›, Bool.eq_false_iff.mpr ‹_›, v, rfl, rfl⟩)
  · exact .inl ⟨by omega, rfl⟩

/-- The addresses remembered after a race: the old ones and the byte written. -/
theorem mem_raceWrite_raced (s : State) (a b : Nat) : b ∈ (s.raceWrite a).raced ↔ b ∈ s.raced ∨ b = a := by
  rw [State.raceWrite_raced]
  split
  · constructor
    · exact .inl
    · rintro (h | rfl) <;> assumption
  · rw [List.mem_cons, or_comm]

/-- A race keeps the canonical form of BUF. -/
theorem wf_raceWrite {s : State} {a : Nat} (ha : a < s.bufSize.val) (h : Memory.wf s.bufSize.val s.mem = true) :
    Memory.wf (s.raceWrite a).bufSize.val (s.raceWrite a).mem = true :=
  wf_memWrite ha h

/-- Abandoning a FORMAT keeps the canonical form of BUF: what it draws lies in BUF. -/
theorem wf_abandonFormat {s : State} (h : Memory.wf s.bufSize.val s.mem = true) :
    Memory.wf s.abandonFormat.bufSize.val s.abandonFormat.mem = true := by
  change Memory.wf s.bufSize.val (memDrawRegion s.mem _ (clipRegion _ _ _) _) = true
  by_cases hc : unsigned32 s.latched.addr ≤ s.bufSize.val
  · exact wf_memDrawRegion (by unfold clipRegion; omega) h
  · have hz : clipRegion s.bufSize.val (unsigned32 s.latched.addr) (unsigned32 s.latched.len) = 0 := by
      unfold clipRegion; omega
    rw [hz]; exact h

end Sys2Proof.Machine
end

