-- ==== Sys2Proof/Laws/Numeric.lean ====
section
/-!
SUPPORT. One lemma per numeric primitive that says everything about it: digits, roundHE, strip, magnitude, roundScaled,
pack and the fields of a word. Later proofs cite these and unfold none of them.
-/
namespace Sys2Proof.Machine

open Sys2Proof

/-! ## digits (00_scope.md R12) -/

theorem digitsAux_bounds : ∀ fuel n : Nat, n ≤ fuel →
    0 < digitsAux fuel n ∧ n < 10 ^ digitsAux fuel n ∧ (0 < n → 10 ^ (digitsAux fuel n - 1) ≤ n)
  | 0, n, h => by
    have : n = 0 := by omega
    subst this; simp [digitsAux]
  | fuel + 1, n, h => by
    unfold digitsAux
    split
    · refine ⟨by omega, by omega, fun h0 => ?_⟩
      rw [Nat.sub_self, Nat.pow_zero]; omega
    · have hlt : n / 10 ≤ fuel := by omega
      obtain ⟨h1, h2, h3⟩ := digitsAux_bounds fuel (n / 10) hlt
      refine ⟨by omega, ?_, fun _ => ?_⟩
      · rw [Nat.pow_succ]; omega
      · have h4 := h3 (by omega)
        have h5 : 10 ^ (digitsAux fuel (n / 10)) = 10 ^ (digitsAux fuel (n / 10) - 1) * 10 := by
          rw [← Nat.pow_succ]; congr 1; omega
        rw [Nat.add_sub_cancel, h5]; omega

theorem digits_pos (m : Int) : 0 < digits m := (digitsAux_bounds _ _ le_rfl).1

theorem natAbs_lt_pow_digits (m : Int) : m.natAbs < 10 ^ digits m := (digitsAux_bounds _ _ le_rfl).2.1

theorem pow_digits_le_natAbs {m : Int} (h : m ≠ 0) : 10 ^ (digits m - 1) ≤ m.natAbs :=
  (digitsAux_bounds _ _ le_rfl).2.2 (Int.natAbs_pos.mpr h)

/-- The digit count is the only number with its bounds. -/
theorem digits_unique {m : Int} {k : Nat} (hk : 0 < k) (h1 : 10 ^ (k - 1) ≤ m.natAbs) (h2 : m.natAbs < 10 ^ k) :
    digits m = k := by
  have hm : m ≠ 0 := by
    rintro rfl
    have : 0 < 10 ^ (k - 1) := by positivity
    simp at h1
  have a1 := natAbs_lt_pow_digits m
  have a2 := pow_digits_le_natAbs hm
  have a3 := digits_pos m
  have b1 : k - 1 < digits m := (Nat.pow_lt_pow_iff_right (by norm_num : 1 < 10)).mp (h1.trans_lt a1)
  have b2 : digits m - 1 < k := (Nat.pow_lt_pow_iff_right (by norm_num : 1 < 10)).mp (a2.trans_lt h2)
  omega

/-! ## roundHE (00_scope.md R11) -/

/-- The distance of `n` from `roundHE n d` denominators is at most half a denominator, and even at a tie. -/
theorem roundHE_spec (n : Int) {d : Nat} (hd : 0 < d) :
    |2 * (n - roundHE n d * d)| ≤ d ∧ (|2 * (n - roundHE n d * d)| = d → roundHE n d % 2 = 0) := by
  have hd' : (0 : Int) < d := by exact_mod_cast hd
  have e := Int.mul_ediv_add_emod n d
  have r0 := Int.emod_nonneg n hd'.ne'
  have r1 := Int.emod_lt_of_pos n hd'
  unfold roundHE
  generalize n / (d : Int) = f at *
  generalize n % (d : Int) = r at *
  have en : n = d * f + r := e.symm
  subst en
  split
  · rw [show (2 * ((d : Int) * f + r - (f + 1) * d)) = 2 * r - 2 * d by ring, abs_le, abs_eq hd'.le]
    constructor
    · omega
    · omega
  · split
    · rw [show (2 * ((d : Int) * f + r - f * d)) = 2 * r by ring, abs_le, abs_eq hd'.le]
      constructor
      · omega
      · omega
    · split
      · rw [show (2 * ((d : Int) * f + r - f * d)) = 2 * r by ring, abs_le]
        constructor
        · omega
        · intro _; assumption
      · rw [show (2 * ((d : Int) * f + r - (f + 1) * d)) = 2 * r - 2 * d by ring, abs_le]
        constructor
        · omega
        · omega

/-! ## strip (00_scope.md R14) -/

theorem stripAux_spec : ∀ (fuel : Nat) (m e : Int), m ≠ 0 → m.natAbs < 10 ^ fuel →
    StripsTo m e (stripAux fuel m e).1 (stripAux fuel m e).2
  | 0, m, e, hm, hb => by
    have := Int.natAbs_pos.mpr hm
    simp at hb; omega
  | fuel + 1, m, e, hm, hb => by
    unfold stripAux
    split
    · rename_i h10
      have hm' : m = m / 10 * 10 := by omega
      have hne : m / 10 ≠ 0 := by omega
      have hlt : (m / 10).natAbs < 10 ^ fuel := by rw [Nat.pow_succ] at hb; omega
      obtain ⟨j, h1, h2, h3⟩ := stripAux_spec fuel (m / 10) (e - 1) hne hlt
      refine ⟨j + 1, ?_, by rw [h2]; push_cast; omega, h3⟩
      rw [pow_succ, ← mul_assoc, ← h1]; exact hm'
    · rename_i h10
      exact ⟨0, by simp, by simp, h10⟩

theorem strip_spec {m : Int} (e : Int) (hm : m ≠ 0) : StripsTo m e (strip m e).1 (strip m e).2 := by
  unfold strip
  rw [if_neg hm]
  exact stripAux_spec _ m e hm (natAbs_lt_pow_digits m)

/-- Stripping has one outcome. -/
theorem stripsTo_unique {m e m1 e1 m2 e2 : Int} (h1 : StripsTo m e m1 e1) (h2 : StripsTo m e m2 e2) :
    m1 = m2 ∧ e1 = e2 := by
  obtain ⟨j1, a1, a2, a3⟩ := h1
  obtain ⟨j2, b1, b2, b3⟩ := h2
  rcases lt_trichotomy j1 j2 with hlt | rfl | hlt
  · obtain ⟨k, rfl⟩ := Nat.exists_eq_add_of_lt hlt
    rw [a1, show j1 + k + 1 = (k + 1) + j1 by ring, pow_add, ← mul_assoc] at b1
    have := mul_right_cancel₀ (pow_ne_zero j1 (by norm_num : (10 : Int) ≠ 0)) b1
    rw [pow_succ, ← mul_assoc] at this
    omega
  · rw [a1] at b1
    exact ⟨mul_right_cancel₀ (pow_ne_zero j1 (by norm_num : (10 : Int) ≠ 0)) b1, by omega⟩
  · obtain ⟨k, rfl⟩ := Nat.exists_eq_add_of_lt hlt
    rw [b1, show j2 + k + 1 = (k + 1) + j2 by ring, pow_add, ← mul_assoc] at a1
    have := mul_right_cancel₀ (pow_ne_zero j2 (by norm_num : (10 : Int) ≠ 0)) a1
    rw [pow_succ, ← mul_assoc] at this
    omega

/-! ## magnitude and roundScaled -/

/-- 10^k ≤ a / d < 10^(k+1) for `k = magnitude a d`. -/
theorem magnitude_spec {a d : Nat} (ha : 0 < a) (hd : 0 < d) :
    (10 : ℚ) ^ magnitude a d ≤ (a : ℚ) / d ∧ (a : ℚ) / d < (10 : ℚ) ^ (magnitude a d + 1) := by
  have hd' : (0 : ℚ) < d := by exact_mod_cast hd
  have a1 : a < 10 ^ digits a := by simpa using natAbs_lt_pow_digits a
  have a2 : 10 ^ (digits a - 1) ≤ a := by simpa using pow_digits_le_natAbs (m := a) (by omega)
  have a3 := digits_pos a
  have d1 : d < 10 ^ digits d := by simpa using natAbs_lt_pow_digits d
  have d2 : 10 ^ (digits d - 1) ≤ d := by simpa using pow_digits_le_natAbs (m := d) (by omega)
  have d3 := digits_pos d
  generalize hA : digits (a : Int) = A at *
  generalize hD : digits (d : Int) = D at *
  have h10 : (10 : ℚ) ≠ 0 := by norm_num
  have key : ∀ x y : Nat, ((10 : ℚ) ^ ((A : Int) - D) ≤ (a : ℚ) / d ↔ d * 10 ^ (A - D) ≤ a * 10 ^ (D - A)) := by
    intro _ _
    rw [le_div_iff₀ hd']
    have e : (10 : ℚ) ^ ((A : Int) - D) * 10 ^ (D - A) = 10 ^ (A - D) := by
      rw [← zpow_natCast, ← zpow_natCast, ← zpow_add₀ h10]
      congr 1
      omega
    have hp : (0 : ℚ) < 10 ^ (D - A) := by positivity
    rw [← mul_le_mul_iff_left₀ hp, mul_right_comm, e]
    constructor
    · intro h
      have : ((d * 10 ^ (A - D) : Nat) : ℚ) ≤ ((a * 10 ^ (D - A) : Nat) : ℚ) := by push_cast; linarith
      exact_mod_cast this
    · intro h
      have : ((d * 10 ^ (A - D) : Nat) : ℚ) ≤ ((a * 10 ^ (D - A) : Nat) : ℚ) := by exact_mod_cast h
      push_cast at this; linarith
  have up : (a : ℚ) / d < (10 : ℚ) ^ ((A : Int) - D + 1) := by
    rw [div_lt_iff₀ hd']
    have t1 : (a : ℚ) < 10 ^ A := by exact_mod_cast a1
    have t2 : (10 : ℚ) ^ (D - 1) ≤ d := by exact_mod_cast d2
    have t3 : (10 : ℚ) ^ ((A : Int) - D + 1) * 10 ^ (D - 1) = 10 ^ A := by
      rw [← zpow_natCast, ← zpow_natCast, ← zpow_add₀ h10]
      congr 1
      omega
    calc (a : ℚ) < 10 ^ A := t1
      _ = (10 : ℚ) ^ ((A : Int) - D + 1) * 10 ^ (D - 1) := t3.symm
      _ ≤ _ := by gcongr
  have low : (10 : ℚ) ^ ((A : Int) - D - 1) ≤ (a : ℚ) / d := by
    rw [le_div_iff₀ hd']
    have t1 : (10 : ℚ) ^ (A - 1) ≤ a := by exact_mod_cast a2
    have t2 : (d : ℚ) ≤ 10 ^ D := by exact_mod_cast d1.le
    have t3 : (10 : ℚ) ^ ((A : Int) - D - 1) * 10 ^ D = 10 ^ (A - 1) := by
      rw [← zpow_natCast, ← zpow_natCast, ← zpow_add₀ h10]
      congr 1
      omega
    calc (10 : ℚ) ^ ((A : Int) - D - 1) * d ≤ (10 : ℚ) ^ ((A : Int) - D - 1) * 10 ^ D := by gcongr
      _ = 10 ^ (A - 1) := t3
      _ ≤ a := t1
  unfold magnitude
  rw [hA, hD]
  split
  · rename_i h
    exact ⟨(key 0 0).mpr h, up⟩
  · rename_i h
    refine ⟨low, ?_⟩
    rw [sub_add_cancel]
    exact not_le.mp fun h' => h ((key 0 0).mp h')

/-- `roundHE n d` is the rounding of the rational `n / d`. -/
theorem roundHE_near (n : Int) {d : Nat} (hd : 0 < d) :
    |(n : ℚ) / d - roundHE n d| ≤ 1 / 2 ∧ (|(n : ℚ) / d - roundHE n d| = 1 / 2 → roundHE n d % 2 = 0) := by
  obtain ⟨h1, h2⟩ := roundHE_spec n hd
  have hd' : (0 : ℚ) < d := by exact_mod_cast hd
  have e : |(n : ℚ) / d - roundHE n d| * (2 * d) = ((|2 * (n - roundHE n d * d)| : Int) : ℚ) := by
    push_cast
    rw [← abs_of_pos (show (0 : ℚ) < 2 * d by positivity), ← abs_mul]
    congr 1
    field_simp
  constructor
  · have : ((|2 * (n - roundHE n d * d)| : Int) : ℚ) ≤ d := by exact_mod_cast h1
    rw [← e] at this
    by_contra hc
    push Not at hc
    nlinarith
  · intro h
    apply h2
    have : ((|2 * (n - roundHE n d * d)| : Int) : ℚ) = ((d : Int) : ℚ) := by
      rw [← e, h]; push_cast; ring
    exact_mod_cast this

/-- A rational has one rounding. -/
theorem roundsTo_unique {x : ℚ} {a b : Int} (ha : RoundsTo x a) (hb : RoundsTo x b) : a = b := by
  have near : |x - (a : ℚ)| ≤ 1 / 2 := by
    rcases ha with h | h
    · exact h.le
    · exact h.1.le
  have near' : |x - (b : ℚ)| ≤ 1 / 2 := by
    rcases hb with h | h
    · exact h.le
    · exact h.1.le
  rw [abs_le] at near near'
  have h1 : (a : ℚ) ≤ b + 1 := by linarith
  have h2 : (b : ℚ) ≤ a + 1 := by linarith
  have h1' : a ≤ b + 1 := by exact_mod_cast h1
  have h2' : b ≤ a + 1 := by exact_mod_cast h2
  by_contra hne
  rcases (show a = b + 1 ∨ b = a + 1 by omega) with rfl | rfl
  · have hx : x = b + 1 / 2 := by push_cast at near; linarith
    subst hx
    have ta : |(b : ℚ) + 1 / 2 - ((b + 1 : Int) : ℚ)| = 1 / 2 := by push_cast; rw [abs_eq (by norm_num)]; right; ring
    have tb : |(b : ℚ) + 1 / 2 - (b : ℚ)| = 1 / 2 := by rw [abs_eq (by norm_num)]; left; ring
    have ea := ha.resolve_left (by rw [ta]; norm_num)
    have eb := hb.resolve_left (by rw [tb]; norm_num)
    omega
  · have hx : x = a + 1 / 2 := by push_cast at near'; linarith
    subst hx
    have ta : |(a : ℚ) + 1 / 2 - ((a + 1 : Int) : ℚ)| = 1 / 2 := by push_cast; rw [abs_eq (by norm_num)]; right; ring
    have tb : |(a : ℚ) + 1 / 2 - (a : ℚ)| = 1 / 2 := by rw [abs_eq (by norm_num)]; left; ring
    have ea := ha.resolve_left (by rw [tb]; norm_num)
    have eb := hb.resolve_left (by rw [ta]; norm_num)
    omega

/-! ## pack and the fields of a word (10_state.md R33, R38) -/

theorem mant_field_pack (m e : Int) : (pack m e).extractLsb' 9 55 = BitVec.ofInt 55 m := by
  unfold pack
  rw [BitVec.extractLsb'_append_eq_left]

theorem expo_field_pack (m e : Int) : (pack m e).extractLsb' 0 9 = BitVec.ofInt 9 e := by
  unfold pack
  rw [BitVec.extractLsb'_append_eq_right]

/-- The mantissa of a packed word, for every integer. -/
theorem mant_pack (m e : Int) : mant (pack m e) = m.bmod (2 ^ 55) := by
  unfold mant; rw [mant_field_pack, BitVec.toInt_ofInt]

/-- The exponent of a packed word, for every integer. -/
theorem expo_pack (m e : Int) : expo (pack m e) = e.bmod (2 ^ 9) := by
  unfold expo; rw [expo_field_pack, BitVec.toInt_ofInt]

/-- A word is its two fields. -/
theorem pack_fields (w : Word) : pack (mant w) (expo w) = w := by
  unfold pack mant expo
  rw [BitVec.ofInt_toInt, BitVec.ofInt_toInt]
  apply BitVec.eq_of_getLsbD_eq
  intro i hi
  rw [BitVec.getLsbD_append, BitVec.getLsbD_extractLsb', BitVec.getLsbD_extractLsb']
  by_cases h : i < 9
  · simp [h]
  · simp [h, show i - 9 < 55 by omega, show 9 + (i - 9) = i by omega]

/-- Two words with equal fields are equal. -/
theorem word_ext {w w' : Word} (hm : mant w = mant w') (he : expo w = expo w') : w = w' := by
  rw [← pack_fields w, ← pack_fields w', hm, he]

theorem mant_range (w : Word) : -(2 ^ 54) ≤ mant w ∧ mant w ≤ 2 ^ 54 - 1 := by
  unfold mant
  have h1 := BitVec.le_toInt (w.extractLsb' 9 55)
  have h2 := BitVec.toInt_lt (x := w.extractLsb' 9 55)
  omega

theorem expo_range (w : Word) : -256 ≤ expo w ∧ expo w ≤ 255 := by
  unfold expo
  have h1 := BitVec.le_toInt (w.extractLsb' 0 9)
  have h2 := BitVec.toInt_lt (x := w.extractLsb' 0 9)
  omega

/-- The raw-field test of R39 is the test of the signed exponent. -/
theorem isFiniteWord_iff (w : Word) : isFiniteWord w = true ↔ expo w ≠ -256 := by
  unfold isFiniteWord expo
  rw [bne_iff_ne, not_iff_not]
  constructor
  · intro h; rw [h]; decide
  · intro h; apply BitVec.eq_of_toInt_eq; rw [h]; decide

/-! ## The sign test of R15 -/

theorem sameSign_iff (a b : Int) : sameSign a b = true ↔ (a < 0 ↔ b < 0) := by
  by_cases ha : a < 0 <;> by_cases hb : b < 0 <;> simp [sameSign, ha, hb]

/-- On nonzero integers `sameSign` is the positive product of signs in the pseudocode of R160 and R170. -/
theorem sameSign_iff_sign_mul {a b : Int} (ha : a ≠ 0) (hb : b ≠ 0) :
    sameSign a b = true ↔ 0 < sign a * sign b := by
  rw [sameSign_iff]
  unfold sign
  rw [if_neg ha, if_neg hb]
  split <;> split <;> simp [*]

/-- The infinity that R160 and R170 give for nonzero mantissas. -/
theorem signedInfinity_eq {m n : Int} (hm : m ≠ 0) (hn : n ≠ 0) :
    signedInfinity m n = if 0 < sign m * sign n then pinf else ninf := by
  simp only [signedInfinity, sameSign_iff_sign_mul hm hn]

end Sys2Proof.Machine
end

