-- ==== Sys2Proof/Laws/PerInstr.lean ====
section
/-!
SUPPORT. Statements about every command as syntax, one lemma per constructor (LAWS.json names the family).
-/
namespace Sys2Proof.Laws.Encoding

open Sys2Proof

/-- The command's word is a row of the opcode map of 30_encoding.md R83 and its fields are well formed. -/
def Statement (i : Instr) : Prop :=
  (fieldsOf (encode i)).wf = true ∧ ((encode i).extractLsb' 0 8, i) ∈ opcodeMap ∧ (encode i).extractLsb' 8 24 = 0#24

theorem pack : Statement .pack := by unfold Statement; decide
theorem unpackM : Statement .unpackM := by unfold Statement; decide
theorem unpackE : Statement .unpackE := by unfold Statement; decide
theorem isFinite : Statement .isFinite := by unfold Statement; decide
theorem fromParts : Statement .fromParts := by unfold Statement; decide
theorem validate : Statement .validate := by unfold Statement; decide
theorem validateFinite : Statement .validateFinite := by unfold Statement; decide
theorem add : Statement .add := by unfold Statement; decide
theorem sub : Statement .sub := by unfold Statement; decide
theorem neg : Statement .neg := by unfold Statement; decide
theorem abs : Statement .abs := by unfold Statement; decide
theorem mul : Statement .mul := by unfold Statement; decide
theorem div : Statement .div := by unfold Statement; decide
theorem round : Statement .round := by unfold Statement; decide
theorem cmp : Statement .cmp := by unfold Statement; decide
theorem min : Statement .min := by unfold Statement; decide
theorem max : Statement .max := by unfold Statement; decide
theorem eq : Statement .eq := by unfold Statement; decide
theorem parse : Statement .parse := by unfold Statement; decide
theorem format : Statement .format := by unfold Statement; decide

end Sys2Proof.Laws.Encoding
end

