-- ==== Sys2Proof/Tests/Slice0.lean ====
section
/-!
SUPPORT. The package's own tests: ill-formed command words, command words written out bit by bit, one-step tests whose
expected results are the worked examples of the rules and of 95_test_vectors.md, and for every statement with hypotheses
a concrete state and operands that meet them.
-/
namespace Sys2Proof.Tests

open Sys2Proof Sys2Proof.Machine

/-! ## Small states. The vectors assume BUF_SIZE = 64 (95_test_vectors.md). -/

/-- After reset, with a BUF of 64 bytes. -/
def idle : State := { State.reset with bufSize := 64 }

/-- A command about to complete: what its issue leaves where the host has driven `ports`. -/
def about (cmd : Half) (ports : Ports) : State := State.issued { idle with ports := ports } cmd 0

/-- About to complete a command on OPA alone. -/
def on1 (cmd : Half) (a : Word) : State := about cmd { Ports.undriven with opa := some a }

/-- About to complete a command on OPA and OPB. -/
def on2 (cmd : Half) (a b : Word) : State := about cmd { Ports.undriven with opa := some a, opb := some b }

/-- About to complete a command on OPA and OPN. -/
def onN (cmd : Half) (a : Word) (n : Half) : State := about cmd { Ports.undriven with opa := some a, opn := some n }

/-- About to complete a PARSE of a region of a BUF that holds `t` from address 0 on. -/
def onText (t : List Byte) (addr len : Half) : State :=
  { about 0x60#32 { Ports.undriven with addr := some addr, len := some len } with mem := memWriteText [] 0 t }

/-- About to complete a FORMAT. -/
def onFormat (w : Word) (addr len : Half) : State :=
  about 0x70#32 { Ports.undriven with opa := some w, addr := some addr, len := some len }

/-- The idle block with one event on the agenda. -/
def hostDoes (ev : HostEvent) : State := { idle with agenda := [ev] }

/-- STATUS and RESULT after a step. -/
def ends (s : State) : Option (Byte × Option Word) :=
  match step s with
  | .next t => some (t.status, t.result)
  | _ => none

/-- The fault a step answers, if it does. -/
def faultOf (s : State) : Option Fault :=
  match step s with
  | .fault f => some f
  | _ => none

/-- STATUS, RLEN and the bytes of BUF after a step. -/
def formatted (s : State) : Option (Byte × Option Half × List Byte) :=
  match step s with
  | .next t => some (t.status, t.rlen, t.mem.map Prod.snd)
  | _ => none

/-- STATUS, EADDR and ELEN after a step. -/
def errorInfo (s : State) : Option (Byte × Option Half × Option Half) :=
  match step s with
  | .next t => some (t.status, t.eaddr, t.elen)
  | _ => none

/-- What the host has read after a step. -/
def readings (s : State) : Option (List Reading) :=
  match step s with
  | .next t => some t.seen
  | _ => none

/-! ## WellFormed refuses, and decode refuses with it -/

theorem test_wf_rsv : (fieldsOf 0x00000110#32).rsvOk = false ∧ (fieldsOf 0x00000110#32).wf = false := by decide
theorem test_wf_unit : (fieldsOf 0x00000080#32).unitOk = false ∧ (fieldsOf 0x00000080#32).wf = false := by decide
theorem test_wf_func : (fieldsOf 0x00000007#32).funcOk = false ∧ (fieldsOf 0x00000007#32).wf = false := by decide
theorem test_decode_refuses : decode 0x80000000#32 = .error .reservedBits ∧ decode 0x000000F0#32 = .error .reservedUnit ∧
    decode 0x00000014#32 = .error .unassignedFunction := by decide

/-! ## Command words bit by bit: RSV, UNIT, FUNC of R80, R82, R83 -/

theorem test_decode_normalizer :
    decode 0b000000000000000000000000_0000_0000#32 = .ok .pack ∧
    decode 0b000000000000000000000000_0000_0001#32 = .ok .unpackM ∧
    decode 0b000000000000000000000000_0000_0010#32 = .ok .unpackE ∧
    decode 0b000000000000000000000000_0000_0011#32 = .ok .isFinite ∧
    decode 0b000000000000000000000000_0000_0100#32 = .ok .fromParts ∧
    decode 0b000000000000000000000000_0000_0101#32 = .ok .validate ∧
    decode 0b000000000000000000000000_0000_0110#32 = .ok .validateFinite := by decide
theorem test_decode_adder :
    decode 0b000000000000000000000000_0001_0000#32 = .ok .add ∧
    decode 0b000000000000000000000000_0001_0001#32 = .ok .sub ∧
    decode 0b000000000000000000000000_0001_0010#32 = .ok .neg ∧
    decode 0b000000000000000000000000_0001_0011#32 = .ok .abs := by decide
theorem test_decode_multiplier_divider_rounder :
    decode 0b000000000000000000000000_0010_0000#32 = .ok .mul ∧
    decode 0b000000000000000000000000_0011_0000#32 = .ok .div ∧
    decode 0b000000000000000000000000_0100_0000#32 = .ok .round := by decide
theorem test_decode_comparator :
    decode 0b000000000000000000000000_0101_0000#32 = .ok .cmp ∧
    decode 0b000000000000000000000000_0101_0001#32 = .ok .min ∧
    decode 0b000000000000000000000000_0101_0010#32 = .ok .max ∧
    decode 0b000000000000000000000000_0101_0011#32 = .ok .eq := by decide
theorem test_decode_text :
    decode 0b000000000000000000000000_0110_0000#32 = .ok .parse ∧
    decode 0b000000000000000000000000_0111_0000#32 = .ok .format := by decide
theorem test_table_word : decodeTableWord 32 0x13 = some .abs ∧ decodeTableWord 32 0x113 = none := by decide

/-! ## R15: zero counts as non-negative -/

theorem test_sameSign : sameSign 0 5 = true ∧ sameSign 0 (-5) = false ∧ sameSign (-3) (-5) = true ∧
    sameSign 3 (-5) = false := by decide

/-! ## One step of each command: the examples of its rule -/

/-- R110: `PACK 314, −1`. -/
theorem test_pack : ends (onN 0x00#32 314#64 0xFFFFFFFF#32) = some (0x80#8, some 0x00000000000275FF#64) := by decide
/-- R110: `PACK 0, −256` gives the NaN word. -/
theorem test_pack_nan : ends (onN 0x00#32 0#64 0xFFFFFF00#32) = some (0x80#8, some nan) := by decide
/-- R111: `UNPACK_M 0x00000000000275FF`. -/
theorem test_unpackM : ends (on1 0x01#32 0x00000000000275FF#64) = some (0x80#8, some 0x13A#64) := by decide
/-- R111: −Infinity. -/
theorem test_unpackM_ninf : ends (on1 0x01#32 ninf) = some (0x80#8, some 0xFFC0000000000001#64) := by decide
/-- R112: the example, EXP −1. -/
theorem test_unpackE : ends (on1 0x02#32 0x00000000000275FF#64) = some (0x80#8, some 0xFFFFFFFFFFFFFFFF#64) := by
  decide
/-- R112: a sentinel gives −256. -/
theorem test_unpackE_nan : ends (on1 0x02#32 nan) = some (0x80#8, some 0xFFFFFFFFFFFFFF00#64) := by decide
/-- R113: NaN gives 0. -/
theorem test_isFinite : ends (on1 0x03#32 nan) = some (0x80#8, some 0#64) := by decide
/-- R113: a non-canonical word with another EXP gives 1. -/
theorem test_isFinite_other : ends (on1 0x03#32 0x1400#64) = some (0x80#8, some 1#64) := by decide
/-- R114: `FROM_PARTS 31400, 1`. -/
theorem test_fromParts : ends (onN 0x04#32 31400#64 1#32) = some (0x80#8, some 0x00000000000275FF#64) := by decide
/-- R104: two roundings give MANT 100000000000002. -/
theorem test_fromParts_twice :
    ends (onN 0x04#32 10000000000000149#64 257#32) = some (0x80#8, some 0x00B5E620F48004FF#64) := by decide
/-- R115: NaN passes. -/
theorem test_validate : ends (on1 0x05#32 nan) = some (0x80#8, some nan) := by decide
/-- R115: MANT 10, EXP 0 raises. -/
theorem test_validate_raises : ends (on1 0x05#32 0x1400#64) = some (0x03#8, none) := by decide
/-- R116: ZERO passes. -/
theorem test_validateFinite : ends (on1 0x06#32 zero) = some (0x80#8, some zero) := by decide
/-- R116: +Infinity raises. -/
theorem test_validateFinite_raises : ends (on1 0x06#32 pinf) = some (0x03#8, none) := by decide
/-- R142: 3.14159 + 150. -/
theorem test_add : ends (on2 0x10#32 0x0000000009965E05#64 0x0000000000001FFF#64) =
    some (0x80#8, some 0x00000001D359DE05#64) := by decide
/-- R140: +Infinity + −Infinity. -/
theorem test_add_infinities : ends (on2 0x10#32 pinf ninf) = some (0x80#8, some nan) := by decide
/-- R143: 0.3 − 0.1. -/
theorem test_sub : ends (on2 0x11#32 0x0601#64 0x0201#64) = some (0x80#8, some 0x0401#64) := by decide
/-- R143: −Infinity − +Infinity. -/
theorem test_sub_infinities : ends (on2 0x11#32 ninf pinf) = some (0x80#8, some ninf) := by decide
/-- R144: 3140. -/
theorem test_neg : ends (on1 0x12#32 0x00000000000275FF#64) = some (0x80#8, some 0xFFFFFFFFFFFD8DFF#64) := by decide
/-- R144: +Infinity. -/
theorem test_neg_pinf : ends (on1 0x12#32 pinf) = some (0x80#8, some ninf) := by decide
/-- R145: −0.007. -/
theorem test_abs : ends (on1 0x13#32 0xFFFFFFFFFFFFF203#64) = some (0x80#8, some 0x0E03#64) := by decide
/-- R145: −Infinity. -/
theorem test_abs_ninf : ends (on1 0x13#32 ninf) = some (0x80#8, some pinf) := by decide
/-- R162: 2.5e−254 × 0.5 ties to even at exponent 255. -/
theorem test_mul : ends (on2 0x20#32 (pack 25 255) (pack 5 1)) = some (0x80#8, some 0x00000000000018FF#64) := by decide
/-- R160: 0 × +Infinity. -/
theorem test_mul_nan : ends (on2 0x20#32 zero pinf) = some (0x80#8, some nan) := by decide
/-- R172: 2 ÷ 3 gives MANT 6666666666666667, EXP 16. -/
theorem test_div : ends (on2 0x30#32 0x0400#64 0x0600#64) = some (0x80#8, some (pack 6666666666666667 16)) := by decide
/-- R172: ONE ÷ ZERO. -/
theorem test_div_zero : ends (on2 0x30#32 one zero) = some (0x80#8, some nan) := by decide
/-- R181: 2.345 at 2. -/
theorem test_round : ends (onN 0x40#32 0x0000000000125203#64 2#32) = some (0x80#8, some 0x000000000001D402#64) := by
  decide
/-- R182: NaN. -/
theorem test_round_nan : ends (onN 0x40#32 nan 0#32) = some (0x02#8, none) := by decide
/-- R192: 1.5 against 2. -/
theorem test_cmp : ends (on2 0x50#32 0x1E01#64 0x0400#64) = some (0x80#8, some 0xFFFFFFFFFFFFFFFF#64) := by decide
/-- R192: NaN against +Infinity. -/
theorem test_cmp_nan : ends (on2 0x50#32 nan pinf) = some (0x80#8, some 1#64) := by decide
/-- R193: 5, −5. -/
theorem test_min : ends (on2 0x51#32 0x0A00#64 0xFFFFFFFFFFFFF600#64) = some (0x80#8, some 0xFFFFFFFFFFFFF600#64) := by
  decide
/-- R194: 1, 0.1. -/
theorem test_max : ends (on2 0x52#32 0x0200#64 0x0201#64) = some (0x80#8, some 0x0200#64) := by decide
/-- R195: NaN equals itself. -/
theorem test_eq : ends (on2 0x53#32 nan nan) = some (0x80#8, some 1#64) := by decide
/-- R195: NaN, ZERO. -/
theorem test_eq_differs : ends (on2 0x53#32 nan zero) = some (0x80#8, some 0#64) := by decide
/-- R230: `-10.` -/
theorem test_parse : ends (onText [0x2D#8, 0x31#8, 0x30#8, 0x2E#8] 0#32 4#32) =
    some (0x80#8, some 0xFFFFFFFFFFFFFFFF#64) := by decide
/-- R231: `1e` is invalid, and the region is reported whole. -/
theorem test_parse_error : errorInfo (onText [0x20#8, 0x31#8, 0x65#8] 0#32 3#32) =
    some (0x01#8, some 0#32, some 3#32) := by decide
/-- R256: 153.14159. -/
theorem test_format : formatted (onFormat 0x00000001D359DE05#64 0#32 16#32) = some (0x80#8, some 9#32,
    [0x31#8, 0x35#8, 0x33#8, 0x2E#8, 0x31#8, 0x34#8, 0x31#8, 0x35#8, 0x39#8]) := by decide
/-- R63: the sum is not wrapped. -/
theorem test_format_bounds : formatted (onFormat zero 0xFFFFFFFF#32 2#32) = some (0x04#8, none, []) := by decide
/-- R71, R344: a host write into the region of a PARSE in progress leaves any byte there, and is remembered. -/
theorem test_race : (match step { onText [0x35#8] 0#32 1#32 with wait := 1, agenda := [.writeBuf 0#32 0x37#8] } with
    | .next t => some (t.raced, t.draws)
    | _ => none) = some ([0], 1) := by decide
/-- R85: an illegal word completes with ILLEGAL_COMMAND and reads no port. -/
theorem test_illegal : ends (about 0x00000110#32 Ports.undriven) = some (0x05#8, none) := by decide
/-- Every row runs as the first command after reset (log 17). -/
theorem test_first_command : ends (State.withFetchWord idle 32 0x04) = some (0x80#8, some zero) := by decide

/-! ## Witnesses: for each statement with hypotheses, a state and operands that meet them together -/

theorem witness_IllegalWordsCompleteWithIllegalCommand :
    decode 0x00000014#32 = .error .unassignedFunction ∧ decode 0x80000000#32 = .error .reservedBits ∧
    decode 0x00000080#32 = .error .reservedUnit ∧
    (about 0x00000014#32 Ports.undriven).busy = true ∧ (about 0x00000014#32 Ports.undriven).wait = 0 ∧
    (about 0x00000014#32 Ports.undriven).latched.cmd = 0x00000014#32 := by decide

theorem witness_StepRunsTheLatchedCommand :
    (on1 0x13#32 one).busy = true ∧ (on1 0x13#32 one).wait = 0 ∧ (on1 0x13#32 one).latched.cmd = 0x13#32 ∧
    decode 0x13#32 = .ok .abs := by decide

/-- A busy block whose LATENCY has not passed, with a host that moves. -/
def waiting (ev : HostEvent) : State := { on1 0x13#32 one with wait := 2, agenda := [ev] }

theorem witness_StepLetsTheHostMove :
    ((hostDoes .readBusy).busy = false ∧ (hostDoes .readBusy).agenda = [.readBusy]) ∧
    ((waiting .readBusy).busy = true ∧ (waiting .readBusy).wait = 1 + 1 ∧ (waiting .readBusy).agenda = [.readBusy]) ∧
    (idle.busy = false ∧ idle.agenda = []) ∧
    ({ on1 0x13#32 one with wait := 2 }.busy = true ∧ { on1 0x13#32 one with wait := 2 }.wait = 1 + 1 ∧
      { on1 0x13#32 one with wait := 2 }.agenda = []) := by decide

/-- The host moves, and the reset that ends the command. -/
theorem witness_ACommandInProgressIsInvisibleAndAdvances :
    ((waiting .readBusy).busy = true ∧ (waiting .readBusy).wait = 1 + 1 ∧
      readings (waiting .readBusy) = some [.busy true]) ∧
    (ends (waiting .reset) = some (0x00#8, none)) := by decide

/-- The idle block, its ports driven, about to issue FROM_PARTS. -/
def issuing (ports : Ports) (cmd : Half) : State := { idle with ports := ports, agenda := [.issue cmd 3] }

theorem witness_IssueLatchesThePortsRead :
    let s := issuing { Ports.undriven with opa := some 1#64, opn := some 0#32 } 0x04#32
    s.busy = false ∧ s.agenda = [.issue 0x04#32 3] ∧ ∀ p ∈ commandReads 0x04#32, s.ports.holds p = true := by decide

theorem witness_AnIssueReadingAnUndrivenPortFaults :
    let s := issuing { Ports.undriven with opa := some 1#64 } 0x04#32
    s.busy = false ∧ s.agenda = [.issue 0x04#32 3] ∧ .opn ∈ commandReads 0x04#32 ∧ s.ports.holds .opn = false := by
  decide

theorem witness_AnIssueWhileBusyFaults :
    let s := waiting (.issue 0x110#32 0)
    s.busy = true ∧ s.wait = 1 + 1 ∧ s.agenda = [.issue 0x110#32 0] ∧ faultOf s = some .issueWhileBusy := by decide

/-- Each register with and without a value, the block busy in the first; a byte of BUF with a value, one without, one in the
region of a FORMAT in progress, and the first address past BUF. -/
theorem witness_AHostReadGivesTheValueOrFaults :
    readings { waiting .readResult with result := some one } = some [.result one] ∧
    faultOf (waiting .readResult) = some (.unwrittenRegister .result) ∧
    readings { hostDoes .readRlen with rlen := some 3#32 } = some [.rlen 3#32] ∧
    faultOf (hostDoes .readRlen) = some (.unwrittenRegister .rlen) ∧
    readings { hostDoes .readEaddr with eaddr := some 3#32 } = some [.eaddr 3#32] ∧
    faultOf (hostDoes .readEaddr) = some (.unwrittenRegister .eaddr) ∧
    readings { hostDoes .readElen with elen := some 3#32 } = some [.elen 3#32] ∧
    faultOf (hostDoes .readElen) = some (.unwrittenRegister .elen) ∧
    readings { hostDoes (.readBuf 63#32) with mem := [(63, 0x35#8)] } = some [.buf 63#32 0x35#8] ∧
    memRead (hostDoes (.readBuf 63#32)).mem 63 = none ∧
    ((onFormat one 60#32 4#32).inProgress = some .format ∧ (onFormat one 60#32 4#32).inLatchedRegion 63 = true) ∧
    faultOf (hostDoes (.readBuf 64#32)) = some (.outsideBuffer 64) := by decide

/-- The last byte of BUF, unraced and in the region of a PARSE in progress, and the first address past it. -/
theorem witness_AHostWriteChangesOneByte :
    (63#32 : Half).toNat < idle.bufSize.val ∧ idle.inProgress = none ∧
    ((onText [] 60#32 4#32).inProgress = some .parse ∧ (onText [] 60#32 4#32).inLatchedRegion 63 = true ∧
      (onText [] 60#32 3#32).inLatchedRegion 63 = false) ∧ idle.bufSize.val ≤ (64#32 : Half).toNat ∧
    faultOf (hostDoes (.writeBuf 64#32 0#8)) = some (.outsideBuffer 64) := by decide

/-- Both values of BUSY under which a poll is made. -/
theorem witness_DrivingAndPollingChangeNothingElse : (waiting .await).busy = true ∧ (hostDoes .await).busy = false := by
  decide

/-- A reset with a FORMAT in progress, and one with none. -/
theorem witness_ResetLeavesTheResetState :
    (onFormat one 60#32 8#32).inProgress = some .format ∧ (onFormat one 60#32 8#32).latched.addr = 60#32 ∧
    (onFormat one 60#32 8#32).latched.len = 8#32 ∧ idle.inProgress ≠ some .format := by decide

/-- The corners of the round trip's ranges. -/
theorem witness_PackAndItsRoundTrip :
    (mant (pack (-(2 ^ 54)) (-256)) = -(2 ^ 54) ∧ expo (pack (-(2 ^ 54)) (-256)) = -256) ∧
    (mant (pack (2 ^ 54 - 1) 255) = 2 ^ 54 - 1 ∧ expo (pack (2 ^ 54 - 1) 255) = 255) := by decide

theorem witness_CanonicalWordsAreUnique :
    canonical one = true ∧ isFiniteWord one = true ∧ canonical (pack 9999999999999999 (-255)) = true ∧
    isFiniteWord (pack 9999999999999999 (-255)) = true ∧ canonical (pack 0 1) = false ∧
    canonical (pack 10000000000000000 1) = false ∧ canonical (pack 10 0) = false ∧ canonical (pack 5 (-256)) = false := by
  decide

theorem witness_CanonFollowsItsSteps : 0 < (Exact.ofParts 314 (-1)).den := by decide

/-- Two ways of writing 10, one with a denominator. -/
theorem witness_CanonIsAFunctionOfTheValue :
    (0 : ℚ) = 0 ∧ zero = zero ∧ 0 < (Exact.mk 10 1 0).den ∧ 0 < (Exact.mk 30 3 0).den ∧
    (Exact.mk 10 1 0).toRat = (Exact.mk 30 3 0).toRat := by
  refine ⟨rfl, rfl, by decide, by decide, ?_⟩
  norm_num [Exact.toRat]

theorem witness_CanonIsCanonicalIdempotentAndOdd :
    IsCanon 0 zero ∧ canonical one = true ∧ isFiniteWord one = true := ⟨.inl ⟨rfl, rfl⟩, by decide, by decide⟩

theorem witness_PackAssemblesTheFields :
    (onN 0x00#32 314#64 1#32).latched.opa = 314#64 ∧ (onN 0x00#32 314#64 1#32).latched.opn = 1#32 := by decide

theorem witness_UnpackAndIsFiniteReadTheFields : (on1 0x01#32 nan).latched.opa = nan := by decide

theorem witness_FromPartsGivesCanonOfItsValue :
    (onN 0x04#32 314#64 1#32).latched.opa = 314#64 ∧ (onN 0x04#32 314#64 1#32).latched.opn = 1#32 := by decide

/-- A word that passes both, a sentinel, and a word that fails both. -/
theorem witness_ValidateGivesTheWordOrInvalidValue :
    (on1 0x05#32 one).latched.opa = one ∧ canonical one = true ∧ canonical pinf = true ∧
    canonical (pack 5 (-256)) = false := by decide

/-- A non-canonical OPA, a non-canonical OPB alone, and a command that accepts the word, each as an issue leaves it. -/
theorem witness_NonCanonicalOperandsFault :
    (∀ a b, step { idle with ports := { Ports.undriven with opa := some a, opb := some b }, agenda := [.issue 0x10#32 0] } =
      .next (on2 0x10#32 a b)) ∧
    canonical (on2 0x10#32 0x1400#64 nan).latched.opa = false ∧
    (canonical (on2 0x10#32 nan 0x1400#64).latched.opa = true ∧
      canonical (on2 0x10#32 nan 0x1400#64).latched.opb = false) ∧
    canonical (on1 0x05#32 0x1400#64).latched.opa = false :=
  ⟨fun _ _ => rfl, by decide, by decide, by decide⟩

/-- The hypotheses of every statement on two canonical words: both finite, and with each sentinel. -/
theorem witness_two_canonical_operands :
    ((on2 0x10#32 one zero).latched.opa = one ∧ (on2 0x10#32 one zero).latched.opb = zero) ∧
    canonical one = true ∧ canonical zero = true ∧ canonical nan = true ∧ canonical pinf = true ∧
    canonical ninf = true := by decide

theorem witness_AddGivesTheRoundedSum : IsSum nan one nan ∧ IsSum pinf one pinf ∧ IsSum one ninf ninf := by
  refine ⟨by simp [IsSum], ?_, ?_⟩ <;> unfold IsSum <;> simp [show pinf ≠ nan by decide, show one ≠ nan by decide,
    show ninf ≠ nan by decide, show isFiniteWord pinf = false by decide, show isFiniteWord one = true by decide,
    show isFiniteWord ninf = false by decide]

theorem witness_SubAddsTheNegation :
    (on2 0x11#32 one ninf).latched.opa = one ∧ (on2 0x11#32 one ninf).latched.opb = ninf ∧
    canonical one = true ∧ canonical ninf = true ∧ pack (-mant ninf) (expo ninf) = pinf := by decide

theorem witness_NegAndAbsChangeTheMantissaOnly :
    (on1 0x12#32 ninf).latched.opa = ninf ∧ canonical ninf = true := by decide

theorem witness_MulGivesTheRoundedProduct :
    (on2 0x20#32 zero pinf).latched.opa = zero ∧ (on2 0x20#32 zero pinf).latched.opb = pinf ∧
    canonical zero = true ∧ canonical pinf = true := by decide

theorem witness_DivGivesTheRoundedQuotient :
    (on2 0x30#32 one zero).latched.opa = one ∧ (on2 0x30#32 one zero).latched.opb = zero ∧
    canonical one = true ∧ canonical zero = true := by decide

/-- A finite word and a sentinel, at the ends of the range of N. -/
theorem witness_RoundGivesTheNearestMultiple :
    ((onN 0x40#32 one 0x80000000#32).latched.opa = one ∧
      (onN 0x40#32 one 0x80000000#32).latched.opn = 0x80000000#32 ∧ canonical one = true ∧
      isFiniteWord one = true) ∧
    ((onN 0x40#32 nan 0x7FFFFFFF#32).latched.opa = nan ∧ canonical nan = true ∧ isFiniteWord nan = false) := by
  decide

/-- The boundary: as many fractional digits as N. -/
theorem witness_RoundKeepsShortFractions :
    (onN 0x40#32 0x125203#64 3#32).latched.opa = 0x125203#64 ∧
    (onN 0x40#32 0x125203#64 3#32).latched.opn = 3#32 ∧ canonical 0x125203#64 = true ∧
    isFiniteWord 0x125203#64 = true ∧ expo 0x125203#64 ≤ (3#32 : Half).toInt := by decide

theorem witness_AddAndMulCommute :
    (on2 0x10#32 one nan).latched.opa = one ∧ (on2 0x10#32 one nan).latched.opb = nan ∧
    (on2 0x10#32 nan one).latched.opa = nan ∧ (on2 0x10#32 nan one).latched.opb = one ∧
    canonical one = true ∧ canonical nan = true := by decide

theorem witness_AddHasIdentityAndInverse :
    (on2 0x10#32 one zero).latched.opa = one ∧ canonical one = true ∧ isFiniteWord one = true ∧
    (on2 0x10#32 one zero).latched.opb = zero ∧
    (on2 0x10#32 one (pack (-1) 0)).latched.opb = (pack (-mant one) (expo one)) := by decide

/-- The boundary: an exponent sum of −256; and the zero of the second clause. -/
theorem witness_MulOverflowsToTheSignedInfinity :
    (on2 0x20#32 (pack 5 (-200)) (pack 7 (-56))).latched.opa = (pack 5 (-200)) ∧
    (on2 0x20#32 (pack 5 (-200)) (pack 7 (-56))).latched.opb = (pack 7 (-56)) ∧
    canonical (pack 5 (-200)) = true ∧ canonical (pack 7 (-56)) = true ∧ isFiniteWord (pack 5 (-200)) = true ∧
    isFiniteWord (pack 7 (-56)) = true ∧ pack 5 (-200) ≠ zero ∧ pack 7 (-56) ≠ zero ∧
    expo (pack 5 (-200)) + expo (pack 7 (-56)) < -255 ∧ canonical zero = true ∧ isFiniteWord zero = true := by decide

theorem witness_CmpGivesTheOrder :
    (on2 0x50#32 nan pinf).latched.opa = nan ∧ (on2 0x50#32 nan pinf).latched.opb = pinf ∧
    canonical nan = true ∧ canonical pinf = true := by decide

theorem witness_MinMaxAndEqFollowTheOrder :
    (on2 0x51#32 nan zero).latched.opa = nan ∧ (on2 0x51#32 nan zero).latched.opb = zero ∧
    canonical nan = true ∧ canonical zero = true := by decide

theorem witness_CompareIsTotal : canonical nan = true ∧ canonical pinf = true ∧ nan = nan ∧ pinf ≠ nan := by decide

theorem witness_CompareIsTransitive :
    canonical ninf = true ∧ canonical zero = true ∧ canonical nan = true ∧ compareWords ninf zero ≤ 0 ∧
    compareWords zero nan ≤ 0 := by decide

/-- A text that parses, and the empty text at the end of BUF, which does not. -/
theorem witness_ParseCompletes :
    (let s := onText [0x35#8] 0#32 1#32
     s.latched.addr = 0#32 ∧ s.latched.len = 1#32 ∧ 0 + 1 ≤ s.bufSize.val ∧ s.raced = [] ∧
     (∀ i, i < 1 → memRead s.mem (0 + i) = [0x35#8][i]?) ∧ parseText [0x35#8] = some (pack 5 0)) ∧
    (let s := onText [] 64#32 0#32
     s.latched.addr = 64#32 ∧ s.latched.len = 0#32 ∧ 64 + 0 ≤ s.bufSize.val ∧ s.raced = [] ∧
     parseText [] = none) := by decide

theorem witness_ParseOfAnUnwrittenByteFaults :
    let s := onText [0x35#8] 0#32 2#32
    s.latched.addr = 0#32 ∧ s.latched.len = 2#32 ∧ 0 + 2 ≤ s.bufSize.val ∧ s.raced = [] ∧ 1 < 2 ∧
    (∀ i, i < 1 → (memRead s.mem (0 + i)).isSome = true) ∧ memRead s.mem (0 + 1) = none ∧
    faultOf s = some (.unwrittenBuffer 1) := by decide

/-- A PARSE of two bytes whose second the host has written meanwhile. -/
def racedParse : State := { onText [0x35#8, 0x37#8] 0#32 2#32 with raced := [1] }

/-- The hypothesis and the first clause: BUFs that differ in the raced byte of the region, and a next state. -/
theorem witness_ARacedByteIsNotRead :
    (∀ a, a ∉ racedParse.raced → memRead (memWrite racedParse.mem 1 0x78#8) a = memRead racedParse.mem a) ∧
    memWrite racedParse.mem 1 0x78#8 ≠ racedParse.mem ∧ racedParse.inLatchedRegion 1 = true ∧
    ∃ t, exec .parse racedParse = .next t := by
  refine ⟨fun a ha => ?_, by decide, by decide, ?_⟩
  · have : a ≠ 1 := by simpa [racedParse] using ha
    exact memRead_memWrite_other this 0x78#8 _
  · exact ⟨_, execParse_of_read (t := [0x35#8, Config.freeByte 0]) (d := 1) (by decide) rfl⟩

/-- The second clause: the byte after the raced one holds no value. -/
theorem witness_ARacedByteIsNotRead_fault :
    exec .parse { onText [0x35#8, 0x37#8] 0#32 3#32 with raced := [1] } = .fault (.unwrittenBuffer 2) := rfl

/-- One byte past the end of BUF, and a region that would wrap. -/
theorem witness_RegionsOutsideBufEndWithBoundsError :
    (onFormat one 60#32 5#32).latched.addr = 60#32 ∧ (onFormat one 60#32 5#32).latched.len = 5#32 ∧
    (onFormat one 60#32 5#32).bufSize.val < 60 + 5 ∧ (onFormat one 60#32 5#32).latched.opa = one ∧
    canonical one = true ∧ (onFormat one 60#32 5#32).raced = [] ∧
    idle.bufSize.val < (0xFFFFFFFF#32 : Half).toNat + (2#32 : Half).toNat := by decide

/-- Each case of the text, at the boundary between the last two. -/
theorem witness_TextFollowsTheCases :
    (canonical (pack (-15) 0) = true ∧ isFiniteWord (pack (-15) 0) = true ∧ expo (pack (-15) 0) = 0) ∧
    (canonical (pack 15 (-1)) = true ∧ expo (pack 15 (-1)) < 0) ∧
    (canonical (pack 15 1) = true ∧ 0 < expo (pack 15 1) ∧ expo (pack 15 1) < (decimalText 15).length) ∧
    (canonical (pack 15 2) = true ∧ 0 < expo (pack 15 2) ∧ ((decimalText 15).length : Int) ≤ expo (pack 15 2)) := by
  have h : decimalText 15 = [0x31#8, 0x35#8] := by norm_num [decimalText]
  rw [h]; decide

theorem witness_TextLengthFollowsTheTable :
    (text (pack (-15) (-3))).length = 6 ∧ (text (pack 15 1)).length = 3 ∧ (text (pack (-15) 2)).length = 5 := by decide

/-- A region exactly as long as the text, at the end of BUF. -/
theorem witness_FormatWritesTheText :
    let s := onFormat 0x00000001D359DE05#64 55#32 9#32
    s.latched.opa = 0x00000001D359DE05#64 ∧ s.latched.addr = 55#32 ∧ s.latched.len = 9#32 ∧
    canonical 0x00000001D359DE05#64 = true ∧ 55 + 9 ≤ s.bufSize.val ∧ (text 0x00000001D359DE05#64).length ≤ 9 ∧
    (63#32 : Half).toNat ∉ s.raced ∧ 55 ≤ (63#32 : Half).toNat ∧
    (text 0x00000001D359DE05#64)[(63#32 : Half).toNat - 55]? = some 0x39#8 := by
  decide

/-- A region one byte too short, and the empty region at the end of BUF. -/
theorem witness_FormatIntoAShortRegionDrawsTheRegion :
    (let s := onFormat 0x00000001D359DE05#64 56#32 8#32
     s.latched.opa = 0x00000001D359DE05#64 ∧ s.latched.addr = 56#32 ∧ s.latched.len = 8#32 ∧
     canonical 0x00000001D359DE05#64 = true ∧ 56 + 8 ≤ s.bufSize.val ∧ 8 < (text 0x00000001D359DE05#64).length) ∧
    (64 + 0 ≤ (onFormat one 64#32 0#32).bufSize.val ∧ 0 < (text one).length) := by decide

/-- The FORMAT of ONE at 0, and a PARSE of what it wrote in a later BUF with another byte at 1. -/
theorem witness_ParseOfFormatGivesTheWord :
    let s := onFormat one 0#32 1#32
    let t := { s.finish .ok none (some 1#32) none none with mem := [(0, 0x31#8)] }
    let u := onText [0x31#8, 0x78#8] 0#32 1#32
    s.latched.opa = one ∧ s.latched.addr = 0#32 ∧ s.latched.len = 1#32 ∧ canonical one = true ∧
    s.raced = [] ∧ exec .format s = .next t ∧ t.rlen = some 1#32 ∧
    (∀ b, 0 ≤ b → b < 0 + 1 → memRead u.mem b = memRead t.mem b) ∧ u.bufSize = t.bufSize ∧
    u.raced = [] ∧ u.latched.addr = 0#32 ∧ u.latched.len = 1#32 := by
  refine ⟨rfl, rfl, rfl, by decide, rfl, rfl, rfl, fun b _ h => ?_, rfl, rfl, rfl, rfl⟩
  obtain rfl : b = 0 := by omega
  rfl

theorem witness_CommandsRaiseOnlyTheirOwnCodes :
    exec .round (onN 0x40#32 nan 0#32) = .next (afterError (onN 0x40#32 nan 0#32) 0x02#8) ∧
    (let s := about 0x14#32 Ports.undriven
     s.busy = true ∧ s.wait = 0 ∧ s.latched.cmd = 0x14#32 ∧ decode 0x14#32 = .error .unassignedFunction ∧
     step s = .next (afterError s 0x05#8)) := ⟨rfl, rfl, rfl, rfl, rfl, rfl⟩

theorem witness_CompletionsChangeOnlyTheResults :
    exec .validate (on1 0x05#32 0x1400#64) = .next (afterError (on1 0x05#32 0x1400#64) 0x03#8) := rfl

theorem witness_CompletionsMatchStatusAndResults : exec .abs (on1 0x13#32 ninf) = .next (afterOk (on1 0x13#32 ninf) pinf) :=
  rfl

theorem witness_CompletionsFaultOnlyAsListed :
    exec .add (on2 0x10#32 0x1400#64 nan) = .fault (.nonCanonicalOperand 0x1400#64) := rfl

/-- Two PARSEs of one byte whose BUFs differ behind their region and whose unread latches differ. -/
theorem witness_CommandsDependOnlyOnTheirOperands :
    let s := onText [0x35#8] 0#32 1#32
    let s' := { onText [0x35#8, 0x78#8] 0#32 1#32 with latched := { s.latched with opa := one } }
    (∀ p ∈ portsRead .parse, s'.latched.AgreeAt s.latched p) ∧ s'.latched ≠ s.latched ∧
    s'.bufSize = s.bufSize ∧ s'.draws = s.draws ∧ s'.mem ≠ s.mem ∧
    (∀ addr len, s.latched.addr = addr → s.latched.len = len → ∀ b, addr.toNat ≤ b →
      b < addr.toNat + len.toNat → (b ∈ s'.raced ↔ b ∈ s.raced) ∧ (b ∉ s.raced → memRead s'.mem b = memRead s.mem b)) ∧
    exec .parse s = .next (afterOk s (pack 5 0)) := by
  refine ⟨fun p hp => ?_, by decide, rfl, rfl, by decide, fun addr len ha hl b _ h => ?_, rfl⟩
  · have h : p = .addr ∨ p = .len := by simpa [portsRead] using hp
    rcases h with rfl | rfl <;> rfl
  · subst ha hl
    obtain rfl : b = 0 := by
      have : b < 0 + 1 := h
      omega
    exact ⟨Iff.rfl, fun _ => rfl⟩

theorem witness_NoStepChangesBufSize : step (hostDoes .await) = .next idle := rfl

/-- A state that meets the invariant, busy and about to complete, whose step answers a next state. -/
theorem witness_EveryStepKeepsTheInvariant :
    (on1 0x13#32 one).Inv ∧ (on1 0x13#32 one).busy = true ∧ (on1 0x13#32 one).wait = 0 ∧
    step (on1 0x13#32 one) = .next (afterOk (on1 0x13#32 one) one) := by
  refine ⟨⟨rfl, ?_, ⟨by decide, fun _ => ⟨rfl, rfl⟩, by decide, fun _ => ⟨rfl, rfl⟩⟩, fun _ => ⟨rfl, by decide⟩, ?_⟩, rfl,
    rfl, rfl⟩
  · exact List.mem_cons_self
  · exact ⟨fun _ => rfl, List.nodup_nil, fun a ha => absurd ha (List.not_mem_nil)⟩

/-- An issue with an undriven port, and the fault it answers. -/
theorem witness_OnlyAnIssueRaisesUnwrittenPort :
    step (issuing { Ports.undriven with opa := some 1#64 } 0x04#32) = .fault (.unwrittenPort .opn) := rfl

theorem witness_RoundHalfEvenIsNearestAndSymmetric : 0 < 2 ∧ roundHE 5 2 = 2 ∧ roundHE (-5) 2 = -2 := by decide

theorem witness_StripKeepsTheValue : (31400 : Int) ≠ 0 ∧ strip 31400 1 = (314, -1) := by decide

end Sys2Proof.Tests
end

/-!
PROOFS. The primitives of 00_scope.md: `roundHE`, `digits` and `strip` of the machine meet the relations `RoundsTo`,
`HasDigits` and `StripsTo` of the specification, from which the three obligations follow.
-/
namespace Sys2Proof.Machine

open Sys2Proof

/-! ## roundHE (00_scope.md R11) -/

/-- Rounding is symmetric: a distance to an integer does not see a common sign, nor does evenness. -/
theorem RoundsTo.neg {x : ℚ} {n : ℤ} (h : RoundsTo x n) : RoundsTo (-x) (-n) := by
  have dist : |-x - ((-n : ℤ) : ℚ)| = |x - (n : ℚ)| := by
    rw [Int.cast_neg, sub_neg_eq_add, neg_add_eq_sub, abs_sub_comm]
  unfold RoundsTo
  rw [dist]
  exact h.imp_right fun ⟨tie, even⟩ => ⟨tie, by omega⟩

/-- The machine's `roundHE` is a rounding of the quotient. -/
theorem roundsTo_roundHE (n : ℤ) {d : ℕ} (hd : 0 < d) : RoundsTo ((n : ℚ) / d) (roundHE n d) := by
  obtain ⟨near, even⟩ := roundHE_near n hd
  exact near.lt_or_eq.imp_right fun tie => ⟨tie, even tie⟩

/-- Symmetry of `roundHE`: both sides round `-(n / d)`, and a rational has one rounding. -/
theorem roundHE_neg (n : ℤ) {d : ℕ} (hd : 0 < d) : roundHE (-n) d = -roundHE n d := by
  have left := roundsTo_roundHE (-n) hd
  rw [Int.cast_neg, neg_div] at left
  exact roundsTo_unique left (roundsTo_roundHE n hd).neg

/-- Settles O58: `roundHE` is the rounding, and the rounding is unique, so its symmetry is that of `RoundsTo`. -/
theorem roundHalfEvenIsNearestAndSymmetric : Obligations.RoundHalfEvenIsNearestAndSymmetric :=
  fun n _ hd => ⟨roundsTo_roundHE n hd, roundHE_neg n hd⟩

/-! ## digits (00_scope.md R12) -/

theorem hasDigits_digits (m : ℤ) : HasDigits m (digits m) := by
  by_cases hm : m = 0
  · subst hm
    exact .inl ⟨rfl, rfl⟩
  · exact .inr ⟨hm, digits_pos m, pow_digits_le_natAbs hm, natAbs_lt_pow_digits m⟩

/-- Settles O59: the digit count of each 64-bit extreme is the one that its powers of ten bound. -/
theorem digitsCountsDecimalDigits : Obligations.DigitsCountsDecimalDigits :=
  ⟨hasDigits_digits, rfl, digits_unique (by decide) (by decide) (by decide),
    digits_unique (by decide) (by decide) (by decide)⟩

/-! ## strip (00_scope.md R14) -/

/-- What stripping moves from the mantissa to the exponent leaves the value as it was. -/
theorem StripsTo.value_eq {m e m' e' : ℤ} (h : StripsTo m e m' e') :
    (m' : ℚ) * (10 : ℚ) ^ (-e') = (m : ℚ) * (10 : ℚ) ^ (-e) := by
  obtain ⟨j, rfl, rfl, -⟩ := h
  calc (m' : ℚ) * (10 : ℚ) ^ (-(e - j)) = m' * (10 : ℚ) ^ ((j : ℤ) + -e) := by rw [neg_sub, sub_eq_add_neg]
    _ = m' * ((10 : ℚ) ^ j * (10 : ℚ) ^ (-e)) := by rw [zpow_add₀ (by norm_num), zpow_natCast]
    _ = ((m' * 10 ^ j : ℤ) : ℚ) * (10 : ℚ) ^ (-e) := by push_cast; rw [mul_assoc]

theorem StripsTo.no_trailing_zero {m e m' e' : ℤ} (h : StripsTo m e m' e') : m' % 10 ≠ 0 := by
  obtain ⟨_, _, _, h10⟩ := h
  exact h10

@[simp] theorem strip_zero (e : ℤ) : strip 0 e = (0, 0) := if_pos rfl

/-- Settles O60: both clauses for a nonzero mantissa are read off `StripsTo`. -/
theorem stripKeepsTheValue : Obligations.StripKeepsTheValue :=
  ⟨strip_zero, fun _ e hm => ⟨(strip_spec e hm).no_trailing_zero, (strip_spec e hm).value_eq⟩⟩

end Sys2Proof.Machine

/-!
PROOFS. The state of the block (10_state.md): packing and canonical words (R33 to R38), the host's reads, drives and
polls (R44, R45), what a completion leaves in STATUS and the result registers (R40 to R42) and what it depends on (R48),
and the invariant of the machine (after reset, R49, and after every step).
-/
namespace Sys2Proof.Machine

open Sys2Proof

/-! ## Packing (10_state.md R38) -/

/-- The low 55 bits of `m` above the low 9 bits of `e`, as one number. -/
theorem pack_eq_ofInt (m e : ℤ) : pack m e = BitVec.ofInt 64 (m * 2 ^ 9 + e % 2 ^ 9) := by
  apply BitVec.eq_of_toNat_eq
  have he : (BitVec.ofInt 9 e).toNat < 2 ^ 9 := BitVec.isLt _
  rw [pack, BitVec.toNat_append, ← Nat.shiftLeft_add_eq_or_of_lt he, Nat.shiftLeft_eq, BitVec.toNat_ofInt,
    BitVec.toNat_ofInt, BitVec.toNat_ofInt]
  norm_num
  omega

theorem mant_pack_of_range {m : ℤ} (e : ℤ) (h : -(2 ^ 54) ≤ m) (h' : m ≤ 2 ^ 54 - 1) : mant (pack m e) = m := by
  rw [mant_pack]
  exact Int.bmod_eq_of_le (by norm_num; omega) (by norm_num; omega)

theorem expo_pack_of_range (m : ℤ) {e : ℤ} (h : -256 ≤ e) (h' : e ≤ 255) : expo (pack m e) = e := by
  rw [expo_pack]
  exact Int.bmod_eq_of_le (by norm_num; omega) (by norm_num; omega)

/-- Settles O14: packing concatenates the fields, and a field in its range is its own residue. -/
theorem packAndItsRoundTrip : Obligations.PackAndItsRoundTrip :=
  ⟨pack_eq_ofInt, fun m e hm hm' he he' => ⟨mant_pack_of_range e hm hm', expo_pack_of_range m he he'⟩⟩

/-! ## Canonical words (10_state.md R34, R35) -/

/-- A word is known by its two fields. -/
theorem eq_iff_fields (w w' : Word) : w = w' ↔ mant w = mant w' ∧ expo w = expo w' :=
  ⟨fun h => h ▸ ⟨rfl, rfl⟩, fun ⟨hm, he⟩ => word_ext hm he⟩

theorem eq_zero_iff (w : Word) : w = zero ↔ mant w = 0 ∧ expo w = 0 := eq_iff_fields w zero

/-- The sentinels are the words of exponent −256 with the mantissas of R34. -/
theorem sentinel_iff (w : Word) : (w = nan ∨ w = pinf ∨ w = ninf) ↔
    expo w = -256 ∧ (mant w = 0 ∨ mant w = 2 ^ 54 - 1 ∨ mant w = -(2 ^ 54 - 1)) := by
  have fields : mant nan = 0 ∧ expo nan = -256 ∧ mant pinf = 2 ^ 54 - 1 ∧ expo pinf = -256 ∧
      mant ninf = -(2 ^ 54 - 1) ∧ expo ninf = -256 := by decide
  obtain ⟨m1, e1, m2, e2, m3, e3⟩ := fields
  rw [eq_iff_fields w nan, eq_iff_fields w pinf, eq_iff_fields w ninf, m1, e1, m2, e2, m3, e3]
  tauto

theorem canonicalNonzero_iff (w : Word) : canonicalNonzero w = true ↔
    -255 ≤ expo w ∧ expo w ≤ 255 ∧ mant w ≠ 0 ∧ |mant w| ≤ 9999999999999999 ∧ mant w % 10 ≠ 0 := by
  have habs : (mant w).natAbs ≤ Config.maxMantissa.natAbs ↔ |mant w| ≤ 9999999999999999 := by
    rw [show Config.maxMantissa.natAbs = 9999999999999999 from rfl, Int.abs_eq_natAbs]
    omega
  simp only [canonicalNonzero, Bool.and_eq_true, decide_eq_true_eq, habs, and_assoc]
  rfl

/-- The three cases of R35. -/
theorem canonical_iff (w : Word) : canonical w = true ↔
    ((w = nan ∨ w = pinf ∨ w = ninf) ∨ (mant w = 0 ∧ expo w = 0) ∨
      (-255 ≤ expo w ∧ expo w ≤ 255 ∧ mant w ≠ 0 ∧ |mant w| ≤ 9999999999999999 ∧ mant w % 10 ≠ 0)) := by
  simp only [canonical, isSentinel, Bool.or_eq_true, beq_iff_eq, canonicalNonzero_iff, eq_zero_iff w, or_assoc]

/-- The words outside R35, by their fields. -/
theorem not_canonical_iff (w : Word) : canonical w = false ↔
    ((mant w = 0 ∧ expo w ≠ 0 ∧ expo w ≠ -256) ∨ (9999999999999999 < |mant w| ∧ expo w ≠ -256) ∨
      (mant w ≠ 0 ∧ mant w % 10 = 0 ∧ expo w ≠ -256) ∨
      (expo w = -256 ∧ mant w ≠ 0 ∧ mant w ≠ 2 ^ 54 - 1 ∧ mant w ≠ -(2 ^ 54 - 1))) := by
  have hexpo := expo_range w
  rw [← Bool.not_eq_true, canonical_iff, sentinel_iff, Int.abs_eq_natAbs]
  omega

/-- A finite canonical word is ZERO or of case 3 of R35, whose mantissa has no trailing zero. -/
theorem finite_canonical_cases {w : Word} (hc : canonical w = true) (hf : isFiniteWord w = true) :
    (mant w = 0 ∧ expo w = 0) ∨ mant w % 10 ≠ 0 := by
  have hexpo := (isFiniteWord_iff w).mp hf
  rcases (canonical_iff w).mp hc with hs | hz | ⟨-, -, -, -, h10⟩
  · exact absurd ((sentinel_iff w).mp hs).1 hexpo
  · exact .inl hz
  · exact .inr h10

/-- The mantissa of a word written at an exponent `e` that is not below its own. -/
theorem ratVal_eq_scaled {w : Word} {e : ℤ} (h : expo w ≤ e) :
    ratVal w = ((mant w * 10 ^ (e - expo w).toNat : ℤ) : ℚ) * (10 : ℚ) ^ (-e) := by
  have hexp : -(expo w) = ((e - expo w).toNat : ℤ) + -e := by omega
  rw [ratVal, hexp, zpow_add₀ (by norm_num), zpow_natCast]
  push_cast
  ring

/-- A mantissa with no trailing zero is what strips from it at a larger exponent. -/
theorem stripsTo_scaled {m e e' : ℤ} (h10 : m % 10 ≠ 0) (h : e ≤ e') :
    StripsTo (m * 10 ^ (e' - e).toNat) e' m e :=
  ⟨(e' - e).toNat, rfl, by omega, h10⟩

/-- Words whose mantissas have no trailing zero and whose values are equal are equal: at the larger exponent they have one
mantissa, and it strips in one way. -/
theorem eq_of_ratVal_eq {a b : Word} (ha : mant a % 10 ≠ 0) (hb : mant b % 10 ≠ 0) (h : ratVal a = ratVal b) : a = b := by
  have hle : expo a ≤ max (expo a) (expo b) := le_max_left _ _
  have hle' : expo b ≤ max (expo a) (expo b) := le_max_right _ _
  generalize max (expo a) (expo b) = e at hle hle'
  have hpow : (10 : ℚ) ^ (-e) ≠ 0 := by positivity
  rw [ratVal_eq_scaled hle, ratVal_eq_scaled hle', mul_left_inj' hpow] at h
  have hm : mant a * 10 ^ (e - expo a).toNat = mant b * 10 ^ (e - expo b).toNat := by exact_mod_cast h
  obtain ⟨h1, h2⟩ := stripsTo_unique (stripsTo_scaled ha hle) (hm ▸ stripsTo_scaled hb hle')
  exact word_ext h1 h2

theorem ratVal_eq_zero_iff (w : Word) : ratVal w = 0 ↔ mant w = 0 := by
  have hpow : (10 : ℚ) ^ (-expo w) ≠ 0 := by positivity
  rw [ratVal, mul_eq_zero, or_iff_left hpow, Int.cast_eq_zero]

/-- On finite canonical words bit equality is value equality. -/
theorem eq_iff_ratVal_eq {a b : Word} (ca : canonical a = true) (cb : canonical b = true) (fa : isFiniteWord a = true)
    (fb : isFiniteWord b = true) : a = b ↔ ratVal a = ratVal b := by
  refine ⟨congrArg ratVal, fun h => ?_⟩
  have hzero : mant a = 0 ↔ mant b = 0 := by rw [← ratVal_eq_zero_iff, ← ratVal_eq_zero_iff, h]
  rcases finite_canonical_cases ca fa with ⟨ma, ea⟩ | ha <;> rcases finite_canonical_cases cb fb with ⟨mb, eb⟩ | hb
  · exact word_ext (ma.trans mb.symm) (ea.trans eb.symm)
  · simp [hzero.mp ma] at hb
  · simp [hzero.mpr mb] at ha
  · exact eq_of_ratVal_eq ha hb h

/-- Settles O15: the cases of R35 by the fields of a word, which its value determines. -/
theorem canonicalWordsAreUnique : Obligations.CanonicalWordsAreUnique := by
  refine ⟨canonical_iff, fun w => ⟨fun ⟨hs, he⟩ => ?_, eq_zero_iff w⟩, fun _ _ => eq_iff_ratVal_eq, not_canonical_iff⟩
  obtain ⟨hexpo, -⟩ := (sentinel_iff w).mp hs
  omega

/-! ## The host's reads, drives and polls (10_state.md R44, R45) -/

theorem hostReadRegister_of_some {α : Type} {s : State} {r : ResultName} {v : Option α} {x : α} {reading : α → Reading}
    (h : v = some x) : hostReadRegister s r v reading = .next { s with seen := reading x :: s.seen } := by
  rw [h, hostReadRegister_some]

theorem hostReadRegister_of_none {α : Type} {s : State} {r : ResultName} {v : Option α} {reading : α → Reading}
    (h : v = none) : hostReadRegister s r v reading = .fault (.unwrittenRegister r) := by
  rw [h, hostReadRegister_none]

theorem hostReadBuf_of_outside {s : State} {a : Half} (h : s.bufSize.val ≤ a.toNat) :
    hostReadBuf s a = .fault (.outsideBuffer a.toNat) :=
  if_neg (not_lt.mpr h)

theorem hostReadBuf_of_free {s : State} {a : Half} (hin : a.toNat < s.bufSize.val)
    (hfree : s.readRaces a.toNat = true ∨ memRead s.mem a.toNat = none) : hostReadBuf s a = .next (s.seeFree a) := by
  rcases hostReadBuf_cases s a with ⟨hout, -⟩ | ⟨-, -, e⟩ | ⟨-, hrace, v, hv, -⟩
  · omega
  · exact e
  · simp [hrace, hv] at hfree

theorem hostReadBuf_of_value {s : State} {a : Half} {v : Byte} (hin : a.toNat < s.bufSize.val)
    (hrace : ¬s.readRaces a.toNat = true) (hv : memRead s.mem a.toNat = some v) :
    hostReadBuf s a = .next { s with seen := .buf a v :: s.seen } := by
  rcases hostReadBuf_cases s a with ⟨hout, -⟩ | ⟨-, hfree, -⟩ | ⟨-, -, v', hv', e⟩
  · omega
  · simp [hrace, hv] at hfree
  · obtain rfl : v' = v := Option.some.inj (hv'.symm.trans hv)
    exact e

/-- Settles O10: a read of a result register goes by whether it holds a value; a read of BUF by its address, the race and
the byte. -/
theorem aHostReadGivesTheValueOrFaults : Obligations.AHostReadGivesTheValueOrFaults := by
  intro s
  simp only [← readRaces_iff]
  exact ⟨fun _ => hostReadRegister_of_some, hostReadRegister_of_none, fun _ => hostReadRegister_of_some,
    hostReadRegister_of_none, fun _ => hostReadRegister_of_some, hostReadRegister_of_none,
    fun _ => hostReadRegister_of_some, hostReadRegister_of_none,
    fun _ => ⟨hostReadBuf_of_outside, hostReadBuf_of_free, fun _ => hostReadBuf_of_value⟩⟩

theorem hostEvent_await_busy {s : State} (h : s.busy = true) :
    hostEvent .await s = .next { s with agenda := .await :: s.agenda } := if_pos h

theorem hostEvent_await_idle {s : State} (h : s.busy = false) : hostEvent .await s = .next s :=
  if_neg (Bool.eq_false_iff.mp h)

/-- Settles O12: each clause is what `hostEvent` says of its event; a poll goes by BUSY. -/
theorem drivingAndPollingChangeNothingElse : Obligations.DrivingAndPollingChangeNothingElse :=
  fun _ => ⟨fun _ => rfl, fun _ => rfl, fun _ => rfl, fun _ => rfl, fun _ => rfl, rfl, rfl,
    hostEvent_await_busy, hostEvent_await_idle⟩

/-! ## What a completion leaves: every command ends with `State.finish` (60_exceptions.md R304) -/

/-- Which result registers hold a value after a completion with code `c`, of a FORMAT or not (R304). -/
def ValuesFollow (isFormat : Prop) (c : Code) (result : Option Word) (rlen eaddr elen : Option Half) : Prop :=
  (result.isSome = true ↔ c = .ok ∧ ¬isFormat) ∧ (rlen.isSome = true ↔ c = .ok ∧ isFormat) ∧
    (eaddr.isSome = true ↔ c = .formatError) ∧ (elen.isSome = true ↔ c = .formatError)

theorem valuesFollow_ok {isFormat : Prop} (h : ¬isFormat) (w : Word) :
    ValuesFollow isFormat .ok (some w) none none none := by
  simp [ValuesFollow, h]

theorem valuesFollow_format {isFormat : Prop} (h : isFormat) (n : Half) :
    ValuesFollow isFormat .ok none (some n) none none := by
  simp [ValuesFollow, h]

theorem valuesFollow_error {isFormat : Prop} {c : Code} (hok : c ≠ .ok) (hfe : c ≠ .formatError) :
    ValuesFollow isFormat c none none none none := by
  simp [ValuesFollow, hok, hfe]

theorem valuesFollow_formatError {isFormat : Prop} (addr len : Half) :
    ValuesFollow isFormat .formatError none none (some addr) (some len) := by
  simp [ValuesFollow]

/-- Every completion is `State.finish` with values that follow its code, of a state whose BUF is canonical where that of
`s` is. -/
theorem CompletesTo.exists_finish {i : Instr} {s t : State} (h : CompletesTo i s t) :
    ∃ u c r n ea el, t = State.finish u c r n ea el ∧ ValuesFollow (i = .format) c r n ea el ∧
      (s.InvMem → (∀ a ∈ s.raced, a < s.bufSize.val) → u.InvMem) := by
  rcases h with ⟨hi, w, d, rfl, -, -⟩ | ⟨st, rfl, hst⟩ | ⟨-, addr, len, d, rfl, -⟩ | ⟨hi, mem, d, -, hwf, hend⟩
  · exact ⟨_, .ok, some w, none, none, none, rfl, valuesFollow_ok hi w, fun hm _ => hm⟩
  · rcases hst with ⟨rfl, -⟩ | ⟨rfl, -⟩ | ⟨rfl, -⟩
    · exact ⟨s, .invalidValue, none, none, none, none, rfl, valuesFollow_error (by decide) (by decide), fun hm _ => hm⟩
    · exact ⟨s, .typeError, none, none, none, none, rfl, valuesFollow_error (by decide) (by decide), fun hm _ => hm⟩
    · exact ⟨s, .boundsError, none, none, none, none, rfl, valuesFollow_error (by decide) (by decide), fun hm _ => hm⟩
  · exact ⟨_, .formatError, none, none, some addr, some len, rfl, valuesFollow_formatError addr len, fun hm _ => hm⟩
  · rcases hend with rfl | ⟨n, ht, rfl, rfl⟩
    · exact ⟨_, .boundsError, none, none, none, none, rfl, valuesFollow_error (by decide) (by decide), hwf⟩
    · exact ⟨{ s with mem := t.mem, draws := t.draws }, .ok, none, some (BitVec.ofNat 32 n), none, none, ht,
        valuesFollow_format hi _, hwf⟩

/-! ## STATUS of a completion (10_state.md R41) -/

theorem statusByte_eq_ok_iff (c : Code) : statusByte c = 0x80#8 ↔ c = .ok := by cases c <;> decide

theorem statusByte_eq_formatError_iff (c : Code) : statusByte c = 0x01#8 ↔ c = .formatError := by cases c <;> decide

theorem statusByte_mem (c : Code) :
    statusByte c ∈ [0x00#8, 0x80#8, 0x01#8, 0x02#8, 0x03#8, 0x04#8, 0x05#8] := by
  cases c <;> decide

theorem statusCode_statusByte (c : Code) : statusCode (statusByte c) = c.number := by cases c <;> decide

theorem statusReserved_statusByte (c : Code) : statusReserved (statusByte c) = 0#3 := by cases c <;> decide

theorem statusValid_statusByte (c : Code) : statusValid (statusByte c) = true ↔ c = .ok := by cases c <;> decide

theorem Code.number_eq_zero_iff (c : Code) : c.number = 0#4 ↔ c = .ok := by cases c <;> decide

theorem Code.number_eq_one_iff (c : Code) : c.number = 1#4 ↔ c = .formatError := by cases c <;> decide

theorem Code.number_le (c : Code) : c.number.toNat ≤ 5 := by cases c <;> decide

/-- Settles O51: every completion is a `State.finish` whose registers go by its code, which STATUS holds. -/
theorem completionsMatchStatusAndResults : Obligations.CompletionsMatchStatusAndResults := by
  intro i s t h
  obtain ⟨u, c, r, n, ea, el, rfl, ⟨hr, hn, hea, hel⟩, -⟩ := (exec_next h).exists_finish
  simp only [State.finish_status, State.finish_result, State.finish_rlen, State.finish_eaddr, State.finish_elen,
    statusCode_statusByte, statusValid_statusByte, Code.number_eq_zero_iff, Code.number_eq_one_iff, true_and]
  exact ⟨statusReserved_statusByte c, c.number_le, hr, hn, hea, hel⟩

/-! ## What a completion depends on (10_state.md R48, 30_encoding.md R84) -/

/-- Where `a` completes, `a'` completes with the same STATUS and result registers, and with the same BUF if `sameBuf`. -/
def CompletesAlike (sameBuf : Prop) (a a' : Answer) : Prop :=
  ∀ t, a = .next t → ∃ t', a' = .next t' ∧ t'.status = t.status ∧ t'.result = t.result ∧ t'.rlen = t.rlen ∧
    t'.eaddr = t.eaddr ∧ t'.elen = t.elen ∧ (sameBuf → t'.mem = t.mem)

theorem CompletesAlike.requireCanonical {sameBuf : Prop} {k k' : Answer} (w : Word) (h : CompletesAlike sameBuf k k') :
    CompletesAlike sameBuf (requireCanonical w k) (requireCanonical w k') := by
  intro t e
  obtain ⟨hw, hk⟩ := requireCanonical_next e
  rw [requireCanonical_of _ hw]
  exact h t hk

section
variable {sameBuf : Prop} {s s' : State} (hmem : sameBuf → s'.mem = s.mem)
include hmem

theorem completesAlike_finish (c : Code) (r : Option Word) (n ea el : Option Half) :
    CompletesAlike sameBuf (.next (s.finish c r n ea el)) (.next (s'.finish c r n ea el)) := by
  rintro _ ⟨⟩
  exact ⟨_, rfl, rfl, rfl, rfl, rfl, rfl, hmem⟩

theorem completesAlike_succeed {w w' : Word} (hw : w' = w) : CompletesAlike sameBuf (succeed s w) (succeed s' w') :=
  hw ▸ completesAlike_finish hmem _ _ _ _ _

theorem completesAlike_unaryWord (ha : s'.latched.opa = s.latched.opa) (f : Word → Word) :
    CompletesAlike sameBuf (unaryWord s f) (unaryWord s' f) := by
  unfold unaryWord
  rw [ha]
  exact .requireCanonical _ (completesAlike_succeed hmem rfl)

theorem completesAlike_binaryWord (hports : ∀ p ∈ [PortName.opa, .opb], s'.latched.AgreeAt s.latched p)
    (f : Word → Word → Word) : CompletesAlike sameBuf (binaryWord s f) (binaryWord s' f) := by
  have ha : s'.latched.opa = s.latched.opa := hports .opa (by decide)
  have hb : s'.latched.opb = s.latched.opb := hports .opb (by decide)
  unfold binaryWord
  rw [ha, hb]
  exact .requireCanonical _ (.requireCanonical _ (completesAlike_succeed hmem rfl))

theorem completesAlike_execValidate (ha : s'.latched.opa = s.latched.opa) :
    CompletesAlike sameBuf (execValidate s) (execValidate s') := by
  unfold execValidate
  rw [ha]
  split
  · exact completesAlike_succeed hmem rfl
  · exact completesAlike_finish hmem _ _ _ _ _

theorem completesAlike_execValidateFinite (ha : s'.latched.opa = s.latched.opa) :
    CompletesAlike sameBuf (execValidateFinite s) (execValidateFinite s') := by
  unfold execValidateFinite
  rw [ha]
  split
  · exact completesAlike_succeed hmem rfl
  · exact completesAlike_finish hmem _ _ _ _ _

theorem completesAlike_execRound (ha : s'.latched.opa = s.latched.opa) (hn : s'.latched.opn = s.latched.opn) :
    CompletesAlike sameBuf (execRound s) (execRound s') := by
  unfold execRound
  rw [ha, hn]
  refine .requireCanonical _ ?_
  split
  · exact completesAlike_succeed hmem rfl
  · exact completesAlike_finish hmem _ _ _ _ _

/-- PARSE also reads BUF_SIZE and its region, and draws for the raced bytes. -/
theorem completesAlike_execParse (haddr : s'.latched.addr = s.latched.addr) (hlen : s'.latched.len = s.latched.len)
    (hsize : s'.bufSize = s.bufSize)
    (hread : readRegion s'.mem s'.raced (unsigned32 s.latched.addr) (unsigned32 s.latched.len) s'.draws =
      readRegion s.mem s.raced (unsigned32 s.latched.addr) (unsigned32 s.latched.len) s.draws) :
    CompletesAlike sameBuf (execParse s) (execParse s') := by
  unfold execParse regionInside
  rw [haddr, hlen, hsize, hread]
  split
  · split
    · rintro _ ⟨⟩
    · split
      · refine completesAlike_succeed ?_ rfl
        exact hmem
      · refine completesAlike_finish ?_ _ _ _ _ _
        exact hmem
  · exact completesAlike_finish hmem _ _ _ _ _

end

/-- FORMAT also reads BUF_SIZE; what it leaves in BUF follows from BUF, the races and the draws. -/
theorem completesAlike_execFormat {s s' : State} (ha : s'.latched.opa = s.latched.opa)
    (haddr : s'.latched.addr = s.latched.addr) (hlen : s'.latched.len = s.latched.len)
    (hsize : s'.bufSize = s.bufSize) :
    CompletesAlike (s'.mem = s.mem ∧ s'.raced = s.raced ∧ s'.draws = s.draws) (execFormat s) (execFormat s') := by
  unfold execFormat regionInside
  rw [ha, haddr, hlen, hsize]
  refine .requireCanonical _ ?_
  split
  · split
    · exact completesAlike_finish (fun ⟨hm, hr, hd⟩ => by simp [hm, hr, hd]) _ _ _ _ _
    · exact completesAlike_finish (fun ⟨hm, hr, hd⟩ => by simp [hm, hr, hd]) _ _ _ _ _
  · exact completesAlike_finish (fun ⟨hm, hr, hd⟩ => by simp [hm, hr, hd]) _ _ _ _ _

theorem exec_completesAlike {i : Instr} {s s' : State} (hports : ∀ p ∈ portsRead i, s'.latched.AgreeAt s.latched p)
    (hsize : i = .parse ∨ i = .format → s'.bufSize = s.bufSize)
    (hread : i = .parse →
      readRegion s'.mem s'.raced (unsigned32 s.latched.addr) (unsigned32 s.latched.len) s'.draws =
        readRegion s.mem s.raced (unsigned32 s.latched.addr) (unsigned32 s.latched.len) s.draws) :
    CompletesAlike (s'.mem = s.mem ∧ s'.raced = s.raced ∧ s'.draws = s.draws) (exec i s) (exec i s') := by
  have hmem : (s'.mem = s.mem ∧ s'.raced = s.raced ∧ s'.draws = s.draws) → s'.mem = s.mem := And.left
  cases i with
  | pack | fromParts =>
    have ha : s'.latched.opa = s.latched.opa := hports .opa (by decide)
    have hn : s'.latched.opn = s.latched.opn := hports .opn (by decide)
    exact completesAlike_succeed hmem (by rw [ha, hn])
  | unpackM | unpackE | isFinite =>
    have ha : s'.latched.opa = s.latched.opa := hports .opa (by decide)
    exact completesAlike_succeed hmem (by rw [ha])
  | validate => exact completesAlike_execValidate hmem (hports .opa (by decide))
  | validateFinite => exact completesAlike_execValidateFinite hmem (hports .opa (by decide))
  | add => exact completesAlike_binaryWord hmem hports addWords
  | sub => exact completesAlike_binaryWord hmem hports fun a b => addWords a (negWord b)
  | mul => exact completesAlike_binaryWord hmem hports mulWords
  | div => exact completesAlike_binaryWord hmem hports divWords
  | cmp => exact completesAlike_binaryWord hmem hports fun a b => word64 (compareWords a b)
  | min => exact completesAlike_binaryWord hmem hports fun a b => if compareWords a b ≤ 0 then a else b
  | max => exact completesAlike_binaryWord hmem hports fun a b => if 0 ≤ compareWords a b then a else b
  | eq => exact completesAlike_binaryWord hmem hports fun a b => word64 (if compareWords a b = 0 then 1 else 0)
  | neg | abs => exact completesAlike_unaryWord hmem (hports .opa (by decide)) _
  | round => exact completesAlike_execRound hmem (hports .opa (by decide)) (hports .opn (by decide))
  | parse =>
    exact completesAlike_execParse hmem (hports .addr (by decide)) (hports .len (by decide)) (hsize (.inl rfl))
      (hread rfl)
  | format =>
    exact completesAlike_execFormat (hports .opa (by decide)) (hports .addr (by decide)) (hports .len (by decide))
      (hsize (.inr rfl))

/-- Settles O53: PARSE reads the same region by `readRegion_congr`, and every command completes alike. -/
theorem commandsDependOnlyOnTheirOperands : Obligations.CommandsDependOnlyOnTheirOperands := by
  intro i s s' t hports hsize hparse e
  have hread (hi : i = .parse) :
      readRegion s'.mem s'.raced (unsigned32 s.latched.addr) (unsigned32 s.latched.len) s'.draws =
        readRegion s.mem s.raced (unsigned32 s.latched.addr) (unsigned32 s.latched.len) s.draws := by
    obtain ⟨hdraws, hregion⟩ := hparse hi
    rw [hdraws]
    exact readRegion_congr (hregion _ _ rfl rfl)
  obtain ⟨t', e', hst, hr, hn, hea, hel, hm⟩ := exec_completesAlike hports hsize hread t e
  exact ⟨t', e', hst, hr, hn, hea, hel, fun _ h1 h2 h3 => hm ⟨h1, h2, h3⟩⟩

/-! ## The invariant after reset and after every step (10_state.md R49) -/

/-- What the invariant says of STATUS, the result registers, the latches and the races holds after every completion. -/
theorem inv_finish {isFormat : Prop} {u : State} {c : Code} {r : Option Word} {n ea el : Option Half} (hmem : u.InvMem)
    (h : ValuesFollow isFormat c r n ea el) : (u.finish c r n ea el).Inv := by
  obtain ⟨hr, hn, hea, hel⟩ := h
  have results : (u.finish c r n ea el).InvResults := by
    simp only [State.InvResults, State.finish_status, State.finish_result, State.finish_rlen, State.finish_eaddr,
      State.finish_elen, ne_eq, statusByte_eq_ok_iff, statusByte_eq_formatError_iff, ← Option.not_isSome_iff_eq_none,
      hr, hn, hea, hel]
    refine ⟨fun hok => ?_, ?_, ?_, ?_⟩
    · rw [bne_iff_ne, ne_eq, Bool.eq_iff_iff, hr, hn]
      simp [hok]
    · tauto
    · tauto
    · tauto
  exact ⟨hmem, statusByte_mem c, results, fun busy => (Bool.false_ne_true busy).elim, fun _ => rfl, List.nodup_nil,
    fun a ha => (List.not_mem_nil ha).elim⟩

/-- The completion of a legal or an illegal command word keeps the invariant. -/
theorem completeCommand_keeps_inv {s t : State} (h : s.Inv) (e : completeCommand s = .next t) : t.Inv := by
  obtain ⟨hmem, -, -, -, -, -, hraced⟩ := h
  unfold completeCommand at e
  split at e
  · obtain ⟨u, c, r, n, ea, el, rfl, hv, hu⟩ := (exec_next e).exists_finish
    exact inv_finish (hu hmem fun a ha => (hraced a ha).1) hv
  · cases e
    exact inv_finish hmem (valuesFollow_error (isFormat := False) (by decide) (by decide))

/-- New port values keep the invariant when CMD stays and no port loses its value. -/
theorem inv_withPorts {s : State} {p : Ports} (h : s.Inv) (hcmd : p.cmd = s.ports.cmd)
    (hheld : ∀ n, s.ports.holds n = true → p.holds n = true) : State.Inv { s with ports := p } := by
  obtain ⟨hmem, hstatus, hresults, hlatched, hraced⟩ := h
  refine ⟨hmem, hstatus, hresults, fun busy => ?_, hraced⟩
  obtain ⟨hc, hreads⟩ := hlatched busy
  exact ⟨hcmd.trans hc, fun n hn => hheld n (hreads n hn)⟩

/-- An issue starts a command whose ports are driven, with no race yet. -/
theorem inv_issued {s : State} {cmd : Half} (latency : Nat) (h : s.Inv)
    (hreads : ∀ n ∈ commandReads cmd, s.ports.holds n = true) : (s.issued cmd latency).Inv := by
  obtain ⟨hmem, hstatus, hresults, -, -⟩ := h
  refine ⟨hmem, hstatus, hresults, fun _ => ⟨rfl, fun n hn => ?_⟩, fun _ => rfl, List.nodup_nil,
    fun a ha => (List.not_mem_nil ha).elim⟩
  cases n with
  | cmd => rfl
  | opa | opb | opn | addr | len => exact hreads _ hn

theorem busy_of_writeRaces {s : State} {a : Nat} (h : s.writeRaces a = true) : s.busy = true := by
  obtain ⟨hprog, -⟩ := (writeRaces_iff s a).mp h
  by_contra hidle
  simp [State.inProgress, hidle] at hprog

/-- A race lies in BUF and in the region of the command in progress, and is listed once. -/
theorem inv_raceWrite {s : State} {a : Nat} (h : s.Inv) (ha : a < s.bufSize.val) (hr : s.writeRaces a = true) :
    (s.raceWrite a).Inv := by
  obtain ⟨hmem, hstatus, hresults, hlatched, -, hnodup, hregion⟩ := h
  have nodup : (s.raceWrite a).raced.Nodup := by
    rw [State.raceWrite_raced]
    split
    · exact hnodup
    · exact List.nodup_cons.mpr ⟨‹_›, hnodup⟩
  refine ⟨wf_raceWrite ha hmem, hstatus, hresults, hlatched,
    fun idle => absurd (busy_of_writeRaces hr) (Bool.eq_false_iff.mp idle), nodup, fun b hb => ?_⟩
  rcases (mem_raceWrite_raced s a b).mp hb with hb | rfl
  · exact hregion b hb
  · exact ⟨ha, ((writeRaces_iff s b).mp hr).2⟩

theorem inv_resetRegisters {s : State} (hmem : s.InvMem) : s.resetRegisters.Inv :=
  ⟨hmem, List.mem_cons_self, ⟨by simp, by simp, by simp, by simp⟩, fun busy => (Bool.false_ne_true busy).elim,
    fun _ => rfl, List.nodup_nil, fun a ha => (List.not_mem_nil ha).elim⟩

theorem inv_applyReset {s : State} (hmem : s.InvMem) : (applyReset s).Inv := by
  unfold applyReset
  split
  · exact inv_resetRegisters (wf_abandonFormat hmem)
  · exact inv_resetRegisters hmem

theorem hostReadRegister_keeps_inv {α : Type} {s t : State} {r : ResultName} {v : Option α} {reading : α → Reading}
    (h : s.Inv) (e : hostReadRegister s r v reading = .next t) : t.Inv := by
  rcases hostReadRegister_cases s r v reading with ⟨x, -, ex⟩ | ⟨-, ex⟩ <;> rw [ex] at e <;> cases e
  exact h

theorem hostWriteBuf_keeps_inv {s t : State} {a : Half} {v : Byte} (h : s.Inv) (e : hostWriteBuf s a v = .next t) :
    t.Inv := by
  rcases hostWriteBuf_cases s a v with ⟨-, ex⟩ | ⟨ha, hr, ex⟩ | ⟨ha, -, ex⟩ <;> rw [ex] at e <;> cases e
  · exact inv_raceWrite h ha hr
  · obtain ⟨hmem, hrest⟩ := h
    exact ⟨wf_memWrite ha hmem, hrest⟩

theorem hostReadBuf_keeps_inv {s t : State} {a : Half} (h : s.Inv) (e : hostReadBuf s a = .next t) : t.Inv := by
  rcases hostReadBuf_cases s a with ⟨-, ex⟩ | ⟨-, -, ex⟩ | ⟨-, -, v, -, ex⟩ <;> rw [ex] at e <;> cases e
  · exact h
  · exact h

theorem hostEvent_issue_busy {s : State} {cmd : Half} {latency : Nat} (h : s.busy = true) :
    hostEvent (.issue cmd latency) s = .fault .issueWhileBusy := if_pos h

theorem hostEvent_issue_idle {s : State} {cmd : Half} {latency : Nat} (h : s.busy = false) :
    hostEvent (.issue cmd latency) s = issueCommand s cmd latency := if_neg (Bool.eq_false_iff.mp h)

theorem hostEvent_keeps_inv {s t : State} (ev : HostEvent) (h : s.Inv) (e : hostEvent ev s = .next t) : t.Inv := by
  cases ev with
  | driveOpa v | driveOpb v | driveOpn v | driveAddr v | driveLen v =>
    cases e
    exact inv_withPorts h rfl fun n hn => by cases n <;> simp_all [Ports.holds]
  | issue cmd latency =>
    cases hb : s.busy with
    | true =>
      rw [hostEvent_issue_busy hb] at e
      cases e
    | false =>
      rw [hostEvent_issue_idle hb] at e
      rcases issueCommand_cases s cmd latency with ⟨n, -, -, ex⟩ | ⟨hreads, ex⟩ <;> rw [ex] at e <;> cases e
      exact inv_issued latency h hreads
  | await =>
    cases hb : s.busy with
    | true =>
      rw [hostEvent_await_busy hb] at e
      cases e
      exact h
    | false =>
      rw [hostEvent_await_idle hb] at e
      cases e
      exact h
  | readStatus | readBusy =>
    cases e
    exact h
  | readResult | readRlen | readEaddr | readElen => exact hostReadRegister_keeps_inv h e
  | writeBuf a v => exact hostWriteBuf_keeps_inv h e
  | readBuf a => exact hostReadBuf_keeps_inv h e
  | reset =>
    obtain ⟨hmem, -⟩ := h
    cases e
    exact inv_applyReset hmem

/-- The host's move keeps the invariant, which says nothing of the agenda. -/
theorem hostMove_keeps_inv {s t : State} (h : s.Inv) (e : hostMove s = .next t) : t.Inv := by
  unfold hostMove at e
  split at e
  · cases e
    exact h
  · rename_i ev rest _
    exact hostEvent_keeps_inv (s := { s with agenda := rest }) ev h e

/-- A step completes the command in progress, or is the host's move after some count-down of LATENCY. -/
theorem step_cases (s : State) : step s = completeCommand s ∨ ∃ n, step s = hostMove { s with wait := n } := by
  unfold step
  split
  · split
    · exact .inl rfl
    · exact .inr ⟨_, rfl⟩
  · exact .inr ⟨s.wait, rfl⟩

/-- Settles O56: a step is a completion or a move of the host, and each keeps the invariant. -/
theorem everyStepKeepsTheInvariant : Obligations.EveryStepKeepsTheInvariant := by
  intro s t h e
  rcases step_cases s with hc | ⟨n, hm⟩
  · exact completeCommand_keeps_inv h (hc ▸ e)
  · exact hostMove_keeps_inv (s := { s with wait := n }) h (hm ▸ e)

/-- Settles O55: BUF is empty and every register is as `resetRegisters` leaves it. -/
theorem resetStateMeetsTheInvariant : Obligations.ResetStateMeetsTheInvariant :=
  inv_resetRegisters (s := State.reset) wf_reset

end Sys2Proof.Machine

/-!
PROOFS. BUF (20_memory.md): what a PARSE or FORMAT answers when its region leaves BUF (R63) or holds an unwritten byte
(R64), what a host write changes (R70, R71), and BUF_SIZE along every step (R61).
-/
namespace Sys2Proof.Machine

open Sys2Proof

/-! ## Regions (20_memory.md R63, R64) -/

theorem regionInside_iff (s : State) (addr len : Half) :
    regionInside s addr len = true ↔ addr.toNat + len.toNat ≤ s.bufSize.val :=
  decide_eq_true_iff

theorem execParse_of_read_error {s : State} {a : Nat} (hin : regionInside s s.latched.addr s.latched.len = true)
    (hr : readRegion s.mem s.raced (unsigned32 s.latched.addr) (unsigned32 s.latched.len) s.draws = .error a) :
    execParse s = .fault (.unwrittenBuffer a) := by
  simp only [execParse, hin, if_true, hr]

/-- Settles O41: the region lies in BUF, and reading it stops at the first byte that holds no value. -/
theorem parseOfAnUnwrittenByteFaults : Obligations.ParseOfAnUnwrittenByteFaults := by
  rintro s _ _ k rfl rfl hin hraced hk hwritten hnone
  refine execParse_of_read_error ((regionInside_iff s _ _).mpr hin) ?_
  rw [hraced]
  exact readRegion_error s.mem s.draws _ _ k hk hwritten hnone

theorem execParse_of_outside {s : State} (hout : ¬regionInside s s.latched.addr s.latched.len = true) :
    execParse s = .next (afterError s 0x04#8) :=
  if_neg hout

theorem execFormat_of_outside {s : State} (ha : canonical s.latched.opa = true)
    (hout : ¬regionInside s s.latched.addr s.latched.len = true) :
    execFormat s = .next (afterError s.settleRaces 0x04#8) := by
  rw [execFormat, requireCanonical_of _ ha, if_neg hout, raise_boundsError]

/-- With no race there is nothing to settle. -/
theorem settleRaces_of_no_race {s : State} (h : s.raced = []) : s.settleRaces = s := by
  cases s
  cases h
  rfl

/-- Settles O43: outside BUF both commands raise BOUNDS_ERROR, FORMAT after it has settled its races, which writes raced
bytes only. -/
theorem regionsOutsideBufEndWithBoundsError : Obligations.RegionsOutsideBufEndWithBoundsError := by
  rintro s _ _ rfl rfl hlt
  have hout : ¬regionInside s s.latched.addr s.latched.len = true := by
    rw [regionInside_iff]
    omega
  refine ⟨execParse_of_outside hout, ?_⟩
  rintro _ rfl hcanon
  refine ⟨_, execFormat_of_outside hcanon hout, rfl, fun a ha => ?_, fun hraced => ?_⟩
  · exact memRead_memDrawList_other s.raced s.mem s.draws a ha
  · rw [settleRaces_of_no_race hraced]

/-! ## A host write of BUF (20_memory.md R70, R71) -/

/-- Settles O11: a write outside BUF faults; inside, it is the race or the plain write of one byte. -/
theorem aHostWriteChangesOneByte : Obligations.AHostWriteChangesOneByte := by
  intro s a v
  simp only [← writeRaces_iff]
  rcases hostWriteBuf_cases s a v with ⟨hout, e⟩ | ⟨hin, hrace, e⟩ | ⟨hin, hrace, e⟩
  · exact ⟨fun hin => by omega, fun _ => e⟩
  · refine ⟨fun _ => ⟨_, e, rfl, fun b hb => memRead_memWrite_other hb _ _, fun _ => ⟨?_, rfl, ?_⟩,
      fun hno => absurd hrace hno⟩, fun hout => by omega⟩
    · exact memRead_memWrite_same a.toNat _ s.mem
    · exact mem_raceWrite_raced s a.toNat
  · refine ⟨fun _ => ⟨_, e, rfl, fun b hb => memRead_memWrite_other hb _ _,
      fun hyes => absurd hyes (Bool.eq_false_iff.mp hrace), fun _ => ⟨?_, rfl, rfl⟩⟩, fun hout => by omega⟩
    exact memRead_memWrite_same a.toNat v s.mem

/-! ## BUF_SIZE (20_memory.md R61) -/

theorem CompletesTo.bufSize_eq {i : Instr} {s t : State} (h : CompletesTo i s t) : t.bufSize = s.bufSize := by
  rcases h with ⟨-, w, d, rfl, -, -⟩ | ⟨st, rfl, -⟩ | ⟨-, addr, len, d, rfl, -⟩ |
    ⟨-, mem, d, -, -, rfl | ⟨n, ht, -, -⟩⟩
  · rfl
  · rfl
  · rfl
  · rfl
  · rw [ht]

theorem completeCommand_keeps_bufSize {s t : State} (e : completeCommand s = .next t) : t.bufSize = s.bufSize := by
  unfold completeCommand at e
  split at e
  · exact (exec_next e).bufSize_eq
  · cases e
    rfl

theorem applyReset_bufSize (s : State) : (applyReset s).bufSize = s.bufSize := by
  unfold applyReset
  split <;> rfl

theorem hostReadRegister_keeps_bufSize {α : Type} {s t : State} {r : ResultName} {v : Option α} {reading : α → Reading}
    (e : hostReadRegister s r v reading = .next t) : t.bufSize = s.bufSize := by
  rcases hostReadRegister_cases s r v reading with ⟨x, -, ex⟩ | ⟨-, ex⟩ <;> rw [ex] at e <;> cases e
  rfl

theorem hostWriteBuf_keeps_bufSize {s t : State} {a : Half} {v : Byte} (e : hostWriteBuf s a v = .next t) :
    t.bufSize = s.bufSize := by
  rcases hostWriteBuf_cases s a v with ⟨-, ex⟩ | ⟨-, -, ex⟩ | ⟨-, -, ex⟩ <;> rw [ex] at e <;> cases e
  · rfl
  · rfl

theorem hostReadBuf_keeps_bufSize {s t : State} {a : Half} (e : hostReadBuf s a = .next t) :
    t.bufSize = s.bufSize := by
  rcases hostReadBuf_cases s a with ⟨-, ex⟩ | ⟨-, -, ex⟩ | ⟨-, -, v, -, ex⟩ <;> rw [ex] at e <;> cases e
  · rfl
  · rfl

theorem hostEvent_keeps_bufSize {s t : State} (ev : HostEvent) (e : hostEvent ev s = .next t) :
    t.bufSize = s.bufSize := by
  cases ev with
  | driveOpa v | driveOpb v | driveOpn v | driveAddr v | driveLen v | readStatus | readBusy =>
    cases e
    rfl
  | issue cmd latency =>
    cases hb : s.busy with
    | true =>
      rw [hostEvent_issue_busy hb] at e
      cases e
    | false =>
      rw [hostEvent_issue_idle hb] at e
      rcases issueCommand_cases s cmd latency with ⟨n, -, -, ex⟩ | ⟨-, ex⟩ <;> rw [ex] at e <;> cases e
      rfl
  | await =>
    cases hb : s.busy with
    | true =>
      rw [hostEvent_await_busy hb] at e
      cases e
      rfl
    | false =>
      rw [hostEvent_await_idle hb] at e
      cases e
      rfl
  | readResult | readRlen | readEaddr | readElen => exact hostReadRegister_keeps_bufSize e
  | writeBuf a v => exact hostWriteBuf_keeps_bufSize e
  | readBuf a => exact hostReadBuf_keeps_bufSize e
  | reset =>
    cases e
    exact applyReset_bufSize s

theorem hostMove_keeps_bufSize {s t : State} (e : hostMove s = .next t) : t.bufSize = s.bufSize := by
  unfold hostMove at e
  split at e
  · cases e
    rfl
  · rename_i ev rest _
    exact hostEvent_keeps_bufSize (s := { s with agenda := rest }) ev e

/-- Settles O54: a step is a completion or a move of the host, and neither changes BUF_SIZE. -/
theorem noStepChangesBufSize : Obligations.NoStepChangesBufSize := by
  intro s t e
  rcases step_cases s with hc | ⟨n, hm⟩
  · exact completeCommand_keeps_bufSize (hc ▸ e)
  · exact hostMove_keeps_bufSize (s := { s with wait := n }) (hm ▸ e)

end Sys2Proof.Machine

/-!
PROOFS. Encoding (30_encoding.md): the rows of the opcode map (R83), the ways a command word decodes (R80, R85), and the
completion of an illegal one (60_exceptions.md R304).
-/
namespace Sys2Proof.Machine

open Sys2Proof

/-! ## The opcode map (30_encoding.md R80, R83) -/

theorem mem_of_findOpcode_eq_some {op : BitVec 8} {i : Instr} {rows : List (BitVec 8 × Instr)}
    (h : findOpcode op rows = some i) : (op, i) ∈ rows := by
  induction rows with
  | nil => cases h
  | cons row rest ih =>
    rw [findOpcode] at h
    split at h
    · next same =>
      cases h
      exact same ▸ List.mem_cons_self
    · exact List.mem_cons_of_mem _ (ih h)

theorem not_mem_of_findOpcode_eq_none {op : BitVec 8} {rows : List (BitVec 8 × Instr)}
    (h : findOpcode op rows = none) : op ∉ rows.map Prod.fst := by
  induction rows with
  | nil => exact List.not_mem_nil
  | cons row rest ih =>
    rw [findOpcode] at h
    split at h
    · cases h
    · next differs => exact List.not_mem_cons_of_ne_of_not_mem (Ne.symm differs) (ih h)

/-- The encoder, written from the numbers of R82 and R83, agrees with every row of the map. -/
theorem encode_of_mem_opcodeMap : ∀ row ∈ opcodeMap, encode row.2 = 0#24 ++ row.1 := by
  decide

/-- A command word with RSV = 0 is its opcode below 24 zero bits. -/
theorem eq_append_opcode_of_rsv {w : BitVec 32} (h : w.extractLsb' 8 24 = 0#24) : w = 0#24 ++ w.extractLsb' 0 8 := by
  rw [← h]
  exact (BitVec.extractLsb'_append_extractLsb' (w := 24) (len := 8)).symm

/-! ## Decoding (30_encoding.md R85) -/

theorem fieldsOf_rsvOk_eq_false_iff (w : BitVec 32) : (fieldsOf w).rsvOk = false ↔ w.extractLsb' 8 24 ≠ 0#24 :=
  beq_eq_false_iff_ne

theorem fieldsOf_unitOk_eq_false_iff (w : BitVec 32) :
    (fieldsOf w).unitOk = false ↔ 8 ≤ (w.extractLsb' 4 4).toNat :=
  decide_eq_false_iff_not.trans Nat.not_lt

/-- All that `decode` can answer: an error for each reason of R85, in its order, or the command of a row of R83. -/
theorem decode_cases (w : BitVec 32) :
    (w.extractLsb' 8 24 ≠ 0#24 ∧ decode w = .error .reservedBits) ∨
    (8 ≤ (w.extractLsb' 4 4).toNat ∧ decode w = .error .reservedUnit) ∨
    (w.extractLsb' 0 8 ∉ opcodeMap.map Prod.fst ∧ decode w = .error .unassignedFunction) ∨
    (w.extractLsb' 8 24 = 0#24 ∧ (w.extractLsb' 4 4).toNat < 8 ∧
      ∃ i, (w.extractLsb' 0 8, i) ∈ opcodeMap ∧ decode w = .ok i) := by
  simp only [decode, fieldsOf_rsvOk_eq_false_iff, fieldsOf_unitOk_eq_false_iff]
  split
  · next rsv => exact .inl ⟨rsv, rfl⟩
  · next rsv =>
    split
    · next unit => exact .inr (.inl ⟨unit, rfl⟩)
    · next unit =>
      split
      · next i found =>
        exact .inr (.inr (.inr ⟨not_not.mp rsv, not_le.mp unit, i, mem_of_findOpcode_eq_some found, rfl⟩))
      · next missing => exact .inr (.inr (.inl ⟨not_mem_of_findOpcode_eq_none missing, rfl⟩))

@[simp] theorem decode_encode (i : Instr) : decode (encode i) = .ok i := by
  cases i <;> rfl

theorem eq_encode_of_decode_eq_ok {w : BitVec 32} {i : Instr} (h : decode w = .ok i) : w = encode i := by
  rcases decode_cases w with ⟨-, e⟩ | ⟨-, e⟩ | ⟨-, e⟩ | ⟨rsv, -, j, row, e⟩ <;> cases e.symm.trans h
  exact (eq_append_opcode_of_rsv rsv).trans (encode_of_mem_opcodeMap _ row).symm

/-- Settles O1: a word that decodes has RSV = 0 and the opcode of a row, which is what the command's encoding is. -/
theorem onlyItsOwnWordDecodesToACommand : Obligations.OnlyItsOwnWordDecodesToACommand :=
  fun _ i => ⟨eq_encode_of_decode_eq_ok, fun h => h ▸ decode_encode i⟩

/-! ## Illegal words (30_encoding.md R85, 60_exceptions.md R304) -/

theorem decode_error_iff (w : BitVec 32) :
    (∃ e, decode w = .error e) ↔ w.extractLsb' 8 24 ≠ 0#24 ∨ 8 ≤ (w.extractLsb' 4 4).toNat ∨
      w.extractLsb' 0 8 ∉ opcodeMap.map Prod.fst := by
  rcases decode_cases w with ⟨rsv, e⟩ | ⟨unit, e⟩ | ⟨func, e⟩ | ⟨rsv, unit, i, row, e⟩
  · exact iff_of_true ⟨_, e⟩ (.inl rsv)
  · exact iff_of_true ⟨_, e⟩ (.inr (.inl unit))
  · exact iff_of_true ⟨_, e⟩ (.inr (.inr func))
  · have legal : ¬∃ err, decode w = .error err := fun ⟨err, h⟩ => nomatch e.symm.trans h
    refine iff_of_false legal ?_
    rintro (h | h | h)
    · exact h rsv
    · exact h.not_gt unit
    · exact h (List.mem_map_of_mem row)

theorem commandReads_of_decode_error {w : Half} {e : DecodeError} (h : decode w = .error e) : commandReads w = [] := by
  rw [commandReads, h]

theorem completeCommand_of_decode_error {s : State} {e : DecodeError} (h : decode s.latched.cmd = .error e) :
    completeCommand s = .next (afterError s 0x05#8) := by
  rw [completeCommand, h]
  exact raise_illegalCommand s

/-- A step with no LATENCY left completes the command in progress (R300). -/
theorem step_of_wait_zero {s : State} (busy : s.busy = true) (wait : s.wait = 0) : step s = completeCommand s := by
  rw [step, if_pos busy, wait]

/-- Settles O3: the reasons of R85 are the errors of `decode`, and on an error the completion raises ILLEGAL_COMMAND. -/
theorem illegalWordsCompleteWithIllegalCommand : Obligations.IllegalWordsCompleteWithIllegalCommand := by
  intro w
  refine ⟨decode_error_iff w, fun ⟨e, h⟩ => ⟨commandReads_of_decode_error h, fun s busy wait cmd => ?_⟩⟩
  rw [step_of_wait_zero busy wait]
  exact completeCommand_of_decode_error (cmd ▸ h)

/-- Settles O2: every word is a literal, on which the decoder is evaluated. -/
theorem writtenOutWordsDecode : Obligations.WrittenOutWordsDecode := by
  unfold Obligations.WrittenOutWordsDecode
  decide

end Sys2Proof.Machine

/-!
PROOFS. The normalizer (40_normalizer.md): the rounding to 16 digits and the saturation of Canon (R100) as two relations
on which its determinism, its negation and its canonical results (R101, R105) follow part by part, operand admission
(R106), and the seven commands of unit 0 (R110 to R116).
-/
namespace Sys2Proof.Machine

open Sys2Proof

/-! ## Roundings and strippings bound their results (00_scope.md R11, R14) -/

theorem RoundsTo.dist_le {x : ℚ} {n : ℤ} (h : RoundsTo x n) : |x - (n : ℚ)| ≤ 1 / 2 := by
  rcases h with near | ⟨tie, -⟩
  · exact near.le
  · exact tie.le

theorem roundsTo_intCast (n : ℤ) : RoundsTo (n : ℚ) n :=
  .inl (by norm_num)

/-- Rounding passes no integer on its way up. -/
theorem RoundsTo.le_of_le {x : ℚ} {n k : ℤ} (h : RoundsTo x n) (hk : (k : ℚ) ≤ x) : k ≤ n := by
  obtain ⟨-, hx⟩ := abs_le.mp h.dist_le
  have hlt : (k : ℚ) < ((n + 1 : ℤ) : ℚ) := by
    push_cast
    linarith
  have : k < n + 1 := by exact_mod_cast hlt
  omega

/-- Rounding passes no integer on its way down. -/
theorem RoundsTo.le_of_ge {x : ℚ} {n k : ℤ} (h : RoundsTo x n) (hk : x ≤ (k : ℚ)) : n ≤ k := by
  have := h.neg.le_of_le (k := -k) (by push_cast; linarith)
  omega

/-- The magnitude of a rounding is the rounding of the magnitude. -/
theorem RoundsTo.abs {x : ℚ} {n : ℤ} (h : RoundsTo x n) : RoundsTo |x| |n| := by
  rcases le_total 0 x with hx | hx
  · have hn : 0 ≤ n := h.le_of_le (by simpa using hx)
    rwa [abs_of_nonneg hx, abs_of_nonneg hn]
  · have hn : n ≤ 0 := h.le_of_ge (by simpa using hx)
    rw [abs_of_nonpos hx, abs_of_nonpos hn]
    exact h.neg

theorem ne_zero_of_mod_ten {m : ℤ} (h : m % 10 ≠ 0) : m ≠ 0 := by
  rintro rfl
  exact h rfl

theorem StripsTo.neg {m e m' e' : ℤ} (h : StripsTo m e m' e') : StripsTo (-m) e (-m') e' := by
  obtain ⟨j, hm, he, h10⟩ := h
  exact ⟨j, by rw [hm, neg_mul], he, by omega⟩

theorem StripsTo.abs_le {m e m' e' : ℤ} (h : StripsTo m e m' e') : |m'| ≤ |m| := by
  obtain ⟨j, rfl, -, -⟩ := h
  have one_le : (1 : ℤ) ≤ |10 ^ j| := by
    rw [abs_of_pos (by positivity)]
    exact one_le_pow₀ (by norm_num)
  rw [abs_mul]
  exact le_mul_of_one_le_right (abs_nonneg m') one_le

theorem StripsTo.pos_iff {m e m' e' : ℤ} (h : StripsTo m e m' e') : 0 < m' ↔ 0 < m := by
  obtain ⟨j, rfl, -, -⟩ := h
  exact (mul_pos_iff_of_pos_right (by positivity)).symm

theorem StripsTo.exponent_le {m e m' e' : ℤ} (h : StripsTo m e m' e') : e' ≤ e := by
  obtain ⟨j, -, rfl, -⟩ := h
  omega

/-- Stripping a magnitude of at most 10^k removes at most k zeros. -/
theorem StripsTo.le_exponent {m e m' e' : ℤ} {k : ℕ} (h : StripsTo m e m' e') (hk : |m| ≤ 10 ^ k) : e - k ≤ e' := by
  obtain ⟨j, rfl, rfl, h10⟩ := h
  have one_le : 1 ≤ |m'| := Int.one_le_abs (ne_zero_of_mod_ten h10)
  have hpow : (10 : ℤ) ^ j ≤ 10 ^ k := by
    calc (10 : ℤ) ^ j ≤ |m'| * 10 ^ j := le_mul_of_one_le_left (by positivity) one_le
      _ = |m' * 10 ^ j| := by rw [abs_mul, abs_of_pos (by positivity : (0 : ℤ) < 10 ^ j)]
      _ ≤ 10 ^ k := hk
  have : j ≤ k := (pow_le_pow_iff_right₀ (by norm_num)).mp hpow
  omega

/-- Stripping brings a magnitude of at most 10^16 into the range of R35: 10^16 itself ends in zeros. -/
theorem StripsTo.abs_le_maxMantissa {m e m' e' : ℤ} (h : StripsTo m e m' e') (hm : |m| ≤ 10 ^ 16) :
    |m'| ≤ 9999999999999999 := by
  have hle := h.abs_le.trans hm
  have h10 := h.no_trailing_zero
  rw [Int.abs_eq_natAbs] at hle ⊢
  omega

theorem HasDigits.eq_digits {m : ℤ} {d : ℕ} (h : HasDigits m d) : d = digits m := by
  rcases h with ⟨rfl, rfl⟩ | ⟨-, hd, low, high⟩
  · rfl
  · exact (digits_unique hd low high).symm

theorem HasDigits.neg {m : ℤ} {d : ℕ} (h : HasDigits m d) : HasDigits (-m) d := by
  simpa [HasDigits] using h

/-! ## Words made of a mantissa and an exponent (10_state.md R35, R38) -/

/-- Negation acts on the mantissa field alone, for every integer the field is made of. -/
theorem negWord_pack (m e : ℤ) : negWord (pack m e) = pack (-m) e := by
  unfold negWord
  apply word_ext
  · rw [mant_pack, mant_pack, mant_pack, Int.bmod_neg_bmod]
  · rw [expo_pack, expo_pack, expo_pack, Int.bmod_bmod]

theorem canonical_pack {m e : ℤ} (hm : |m| ≤ 9999999999999999) (h10 : m % 10 ≠ 0) (he : -255 ≤ e) (he' : e ≤ 255) :
    canonical (pack m e) = true ∧ pack m e ≠ nan := by
  obtain ⟨low, high⟩ := abs_le.mp hm
  have mant_eq : mant (pack m e) = m := mant_pack_of_range e (by omega) (by omega)
  have expo_eq : expo (pack m e) = e := expo_pack_of_range m (by omega) he'
  constructor
  · rw [canonical_iff, mant_eq, expo_eq]
    exact .inr (.inr ⟨he, he', ne_zero_of_mod_ten h10, hm, h10⟩)
  · intro hnan
    rw [hnan] at expo_eq
    have : expo nan = -256 := by decide
    omega

/-! ## Canon in two parts: the rounding to 16 digits, then the saturation (R100) -/

/-- The steps of R100 up to the stripping: `m2` and `e2` are `x` rounded to 16 significant digits and stripped. -/
def RoundsTo16 (x : ℚ) (m2 e2 : ℤ) : Prop :=
  ∃ p m1 : ℤ, (10 : ℚ) ^ p ≤ |x| ∧ |x| < (10 : ℚ) ^ (p + 1) ∧
    RoundsTo (x * (10 : ℚ) ^ (15 - p)) m1 ∧ StripsTo m1 (15 - p) m2 e2

/-- The steps of R100 after the stripping. -/
def SaturatesTo (x : ℚ) (m2 e2 : ℤ) (w : Word) : Prop :=
  (e2 < -255 ∧ 0 < x ∧ w = pinf) ∨ (e2 < -255 ∧ x < 0 ∧ w = ninf) ∨
    (255 < e2 ∧ UnderflowsTo m2 e2 w) ∨ (-255 ≤ e2 ∧ e2 ≤ 255 ∧ w = pack m2 e2)

theorem isCanon_zero_iff (w : Word) : IsCanon 0 w ↔ w = zero := by
  simp [IsCanon]

theorem isCanon_iff {x : ℚ} (hx : x ≠ 0) (w : Word) :
    IsCanon x w ↔ ∃ m2 e2, RoundsTo16 x m2 e2 ∧ SaturatesTo x m2 e2 w := by
  constructor
  · rintro (⟨h0, -⟩ | ⟨-, p, m1, m2, e2, low, high, hround, hstrip, hsat⟩)
    · exact absurd h0 hx
    · exact ⟨m2, e2, ⟨p, m1, low, high, hround, hstrip⟩, hsat⟩
  · rintro ⟨m2, e2, ⟨p, m1, low, high, hround, hstrip⟩, hsat⟩
    exact .inr ⟨hx, p, m1, m2, e2, low, high, hround, hstrip, hsat⟩

/-! ### Rounding to 16 digits -/

theorem zpow_position_le {x : ℚ} {p p' : ℤ} (low : (10 : ℚ) ^ p ≤ |x|) (high : |x| < (10 : ℚ) ^ (p' + 1)) : p ≤ p' := by
  have := (zpow_lt_zpow_iff_right₀ (by norm_num : (1 : ℚ) < 10)).mp (low.trans_lt high)
  omega

theorem roundsTo16_unique {x : ℚ} {m e m' e' : ℤ} (h : RoundsTo16 x m e) (h' : RoundsTo16 x m' e') :
    m = m' ∧ e = e' := by
  obtain ⟨p, m1, low, high, hround, hstrip⟩ := h
  obtain ⟨p', m1', low', high', hround', hstrip'⟩ := h'
  obtain rfl : p = p' := le_antisymm (zpow_position_le low high') (zpow_position_le low' high)
  obtain rfl : m1 = m1' := roundsTo_unique hround hround'
  exact stripsTo_unique hstrip hstrip'

theorem RoundsTo16.neg {x : ℚ} {m e : ℤ} (h : RoundsTo16 x m e) : RoundsTo16 (-x) (-m) e := by
  obtain ⟨p, m1, low, high, hround, hstrip⟩ := h
  exact ⟨p, -m1, by rwa [abs_neg], by rwa [abs_neg], by rw [neg_mul]; exact hround.neg, hstrip.neg⟩

/-- A nonzero rational scaled to 16 integer digits rounds to 10^15 at least and 10^16 at most. -/
theorem abs_bounds_of_roundsTo {x : ℚ} {p m1 : ℤ} (low : (10 : ℚ) ^ p ≤ |x|) (high : |x| < (10 : ℚ) ^ (p + 1))
    (h : RoundsTo (x * (10 : ℚ) ^ (15 - p)) m1) : 10 ^ 15 ≤ |m1| ∧ |m1| ≤ 10 ^ 16 := by
  have hpow : (0 : ℚ) < (10 : ℚ) ^ (15 - p) := by positivity
  have habs : |x * (10 : ℚ) ^ (15 - p)| = |x| * (10 : ℚ) ^ (15 - p) := by rw [abs_mul, abs_of_pos hpow]
  have e15 : (10 : ℚ) ^ p * (10 : ℚ) ^ (15 - p) = 10 ^ 15 := by
    rw [← zpow_add₀ (by norm_num), add_sub_cancel]
    norm_num
  have e16 : (10 : ℚ) ^ (p + 1) * (10 : ℚ) ^ (15 - p) = 10 ^ 16 := by
    rw [← zpow_add₀ (by norm_num), show p + 1 + (15 - p) = 16 by ring]
    norm_num
  constructor
  · apply h.abs.le_of_le
    calc ((10 ^ 15 : ℤ) : ℚ) = (10 : ℚ) ^ p * (10 : ℚ) ^ (15 - p) := by rw [e15]; norm_num
      _ ≤ |x * (10 : ℚ) ^ (15 - p)| := by rw [habs]; gcongr
  · apply h.abs.le_of_ge
    calc |x * (10 : ℚ) ^ (15 - p)| ≤ (10 : ℚ) ^ (p + 1) * (10 : ℚ) ^ (15 - p) := by rw [habs]; gcongr
      _ = ((10 ^ 16 : ℤ) : ℚ) := by rw [e16]; norm_num

theorem RoundsTo16.abs_le {x : ℚ} {m e : ℤ} (h : RoundsTo16 x m e) : |m| ≤ 9999999999999999 := by
  obtain ⟨p, m1, low, high, hround, hstrip⟩ := h
  exact hstrip.abs_le_maxMantissa (abs_bounds_of_roundsTo low high hround).2

theorem RoundsTo16.no_trailing_zero {x : ℚ} {m e : ℤ} (h : RoundsTo16 x m e) : m % 10 ≠ 0 := by
  obtain ⟨p, m1, -, -, -, hstrip⟩ := h
  exact hstrip.no_trailing_zero

theorem RoundsTo16.ne_zero {x : ℚ} {m e : ℤ} (h : RoundsTo16 x m e) : m ≠ 0 :=
  ne_zero_of_mod_ten h.no_trailing_zero

theorem RoundsTo16.pos_of_pos {x : ℚ} {m e : ℤ} (h : RoundsTo16 x m e) (hx : 0 < x) : 0 < m := by
  obtain ⟨p, m1, low, high, hround, hstrip⟩ := h
  have hm1 : 0 ≤ m1 := hround.le_of_le (by push_cast; positivity)
  obtain ⟨hlow, -⟩ := abs_bounds_of_roundsTo low high hround
  rw [hstrip.pos_iff]
  rw [abs_of_nonneg hm1] at hlow
  omega

theorem RoundsTo16.pos_iff {x : ℚ} {m e : ℤ} (h : RoundsTo16 x m e) (hx : x ≠ 0) : 0 < m ↔ 0 < x := by
  refine ⟨fun hm => ?_, h.pos_of_pos⟩
  by_contra hnot
  have := h.neg.pos_of_pos (neg_pos_of_neg (lt_of_le_of_ne (not_lt.mp hnot) hx))
  omega

/-- A mantissa of at most 16 digits with no trailing zero loses nothing (R101). -/
theorem RoundsTo16.eq_of_exact {m e m2 e2 : ℤ} (h : RoundsTo16 ((m : ℚ) * (10 : ℚ) ^ (-e)) m2 e2)
    (hm : |m| ≤ 9999999999999999) (h10 : m % 10 ≠ 0) : m2 = m ∧ e2 = e := by
  obtain ⟨p, m1, low, high, hround, hstrip⟩ := h
  have hpos : (0 : ℚ) < (10 : ℚ) ^ (-e) := by positivity
  have hle : e ≤ 15 - p := by
    have hlt : (10 : ℚ) ^ p < (10 : ℚ) ^ (16 - e) := by
      calc (10 : ℚ) ^ p ≤ |(m : ℚ)| * (10 : ℚ) ^ (-e) := by rwa [abs_mul, abs_of_pos hpos] at low
        _ < (10 : ℚ) ^ (16 : ℤ) * (10 : ℚ) ^ (-e) := by
          gcongr
          have : |m| < 10 ^ 16 := by omega
          exact_mod_cast this
        _ = (10 : ℚ) ^ (16 - e) := by rw [← zpow_add₀ (by norm_num), sub_eq_add_neg]
    have := (zpow_lt_zpow_iff_right₀ (by norm_num : (1 : ℚ) < 10)).mp hlt
    omega
  have hscale : (m : ℚ) * (10 : ℚ) ^ (-e) * (10 : ℚ) ^ (15 - p) = ((m * 10 ^ (15 - p - e).toNat : ℤ) : ℚ) := by
    push_cast
    rw [mul_assoc, ← zpow_add₀ (by norm_num), ← zpow_natCast]
    congr 2
    omega
  rw [hscale] at hround
  obtain rfl := roundsTo_unique hround (roundsTo_intCast _)
  exact stripsTo_unique hstrip (stripsTo_scaled h10 hle)

/-! ### Underflow -/

theorem underflowsTo_unique {m e : ℤ} {w w' : Word} (h : UnderflowsTo m e w) (h' : UnderflowsTo m e w') : w = w' := by
  obtain ⟨d, hd, h⟩ := h
  obtain ⟨d', hd', h'⟩ := h'
  obtain rfl : d = d' := hd.eq_digits.trans hd'.eq_digits.symm
  rcases h with ⟨_, rfl⟩ | ⟨_, m3, m4, e4, hround, hstrip, rfl⟩ <;>
    rcases h' with ⟨_, rfl⟩ | ⟨_, m3', m4', e4', hround', hstrip', rfl⟩
  · rfl
  · omega
  · omega
  · obtain rfl := roundsTo_unique hround hround'
    obtain ⟨rfl, rfl⟩ := stripsTo_unique hstrip hstrip'
    rfl

theorem UnderflowsTo.neg {m e : ℤ} {w : Word} (h : UnderflowsTo m e w) : UnderflowsTo (-m) e (negWord w) := by
  obtain ⟨d, hd, ⟨hle, rfl⟩ | ⟨hlt, m3, m4, e4, hround, hstrip, rfl⟩⟩ := h
  · exact ⟨d, hd.neg, .inl ⟨hle, by decide⟩⟩
  · refine ⟨d, hd.neg, .inr ⟨hlt, -m3, -m4, e4, ?_, hstrip.neg, negWord_pack m4 e4⟩⟩
    rw [Int.cast_neg, neg_div]
    exact hround.neg

/-- A mantissa with more digits than underflow drops keeps a nonzero one, no larger than before. -/
theorem abs_bounds_of_dropped {m e m3 : ℤ} {d : ℕ} (hm : m ≠ 0) (hd : HasDigits m d) (he : 255 < e)
    (hlt : e - 255 < (d : ℤ)) (h : RoundsTo ((m : ℚ) / (10 : ℚ) ^ (e - 255)) m3) : 1 ≤ |m3| ∧ |m3| ≤ |m| := by
  obtain ⟨-, -, hlow, -⟩ := hd.resolve_left fun h0 => hm h0.1
  have hpow : (0 : ℚ) < (10 : ℚ) ^ (e - 255) := by positivity
  have habs : |(m : ℚ) / (10 : ℚ) ^ (e - 255)| = |(m : ℚ)| / (10 : ℚ) ^ (e - 255) := by rw [abs_div, abs_of_pos hpow]
  constructor
  · apply h.abs.le_of_le
    rw [habs, Int.cast_one, one_le_div hpow]
    calc (10 : ℚ) ^ (e - 255) ≤ (10 : ℚ) ^ ((d - 1 : ℕ) : ℤ) := zpow_le_zpow_right₀ (by norm_num) (by omega)
      _ = ((10 ^ (d - 1) : ℕ) : ℚ) := by rw [zpow_natCast]; push_cast; rfl
      _ ≤ ((m.natAbs : ℕ) : ℚ) := by exact_mod_cast hlow
      _ = |(m : ℚ)| := by rw [Nat.cast_natAbs, Int.cast_abs]
  · apply h.abs.le_of_ge
    rw [habs, Int.cast_abs]
    exact div_le_self (abs_nonneg _) (one_le_zpow₀ (by norm_num) (by omega))

theorem UnderflowsTo.canonical {m e : ℤ} {w : Word} (h : UnderflowsTo m e w) (hm0 : m ≠ 0)
    (hm : |m| ≤ 9999999999999999) (he : 255 < e) : canonical w = true ∧ w ≠ nan := by
  obtain ⟨d, hd, ⟨-, rfl⟩ | ⟨hlt, m3, m4, e4, hround, hstrip, rfl⟩⟩ := h
  · decide
  · obtain ⟨-, hm3⟩ := abs_bounds_of_dropped hm0 hd he hlt hround
    have hm3 : |m3| ≤ 10 ^ 16 := by omega
    have high := hstrip.exponent_le
    have low := hstrip.le_exponent hm3
    exact canonical_pack (hstrip.abs_le_maxMantissa hm3) hstrip.no_trailing_zero (by omega) high

/-- The machine's underflow follows the steps of R100. -/
theorem underflowsTo_underflow {m e : ℤ} (hm : m ≠ 0) (he : 255 < e) : UnderflowsTo m e (underflow m e) := by
  refine ⟨digits m, hasDigits_digits m, ?_⟩
  have hmax : Config.maxExponent = 255 := rfl
  unfold underflow
  rw [hmax]
  split
  · next drop => exact .inl ⟨drop, rfl⟩
  · next keep =>
    have hround := roundsTo_roundHE m (d := 10 ^ (e - 255).toNat) (by positivity)
    have hpow : ((10 ^ (e - 255).toNat : ℕ) : ℚ) = (10 : ℚ) ^ (e - 255) := by
      rw [← Int.toNat_of_nonneg (show 0 ≤ e - 255 by omega), zpow_natCast]
      push_cast
      rfl
    rw [hpow] at hround
    obtain ⟨hlow, -⟩ := abs_bounds_of_dropped hm (hasDigits_digits m) he (not_le.mp keep) hround
    have hne : roundHE m (10 ^ (e - 255).toNat) ≠ 0 := by
      intro h0
      simp [h0] at hlow
    exact .inr ⟨not_le.mp keep, _, _, _, hround, strip_spec 255 hne, rfl⟩

/-! ### Saturation -/

theorem saturatesTo_iff_of_overflow {x : ℚ} {m e : ℤ} (he : e < -255) (w : Word) :
    SaturatesTo x m e w ↔ (0 < x ∧ w = pinf) ∨ (x < 0 ∧ w = ninf) := by
  simp [SaturatesTo, he, show ¬255 < e by omega, show ¬-255 ≤ e by omega]

theorem saturatesTo_iff_of_underflow {x : ℚ} {m e : ℤ} (he : 255 < e) (w : Word) :
    SaturatesTo x m e w ↔ UnderflowsTo m e w := by
  simp [SaturatesTo, he, show ¬e < -255 by omega, show ¬e ≤ 255 by omega]

theorem saturatesTo_iff_of_range {x : ℚ} {m e : ℤ} (he : -255 ≤ e) (he' : e ≤ 255) (w : Word) :
    SaturatesTo x m e w ↔ w = pack m e := by
  simp [SaturatesTo, he, he', show ¬e < -255 by omega, show ¬255 < e by omega]

theorem saturatesTo_unique {x : ℚ} {m e : ℤ} {w w' : Word} (h : SaturatesTo x m e w) (h' : SaturatesTo x m e w') :
    w = w' := by
  by_cases hover : e < -255
  · rw [saturatesTo_iff_of_overflow hover] at h h'
    rcases h with ⟨pos, rfl⟩ | ⟨neg, rfl⟩ <;> rcases h' with ⟨pos', rfl⟩ | ⟨neg', rfl⟩
    · rfl
    · exact absurd pos neg'.asymm
    · exact absurd neg pos'.asymm
    · rfl
  · by_cases hunder : 255 < e
    · rw [saturatesTo_iff_of_underflow hunder] at h h'
      exact underflowsTo_unique h h'
    · rw [saturatesTo_iff_of_range (not_lt.mp hover) (not_lt.mp hunder)] at h h'
      exact h.trans h'.symm

theorem SaturatesTo.neg {x : ℚ} {m e : ℤ} {w : Word} (h : SaturatesTo x m e w) :
    SaturatesTo (-x) (-m) e (negWord w) := by
  rcases h with ⟨he, hx, rfl⟩ | ⟨he, hx, rfl⟩ | ⟨he, h⟩ | ⟨he, he', rfl⟩
  · exact .inr (.inl ⟨he, neg_neg_of_pos hx, by decide⟩)
  · exact .inl ⟨he, neg_pos_of_neg hx, by decide⟩
  · exact .inr (.inr (.inl ⟨he, h.neg⟩))
  · exact .inr (.inr (.inr ⟨he, he', negWord_pack m e⟩))

theorem SaturatesTo.canonical {x : ℚ} {m e : ℤ} {w : Word} (h : SaturatesTo x m e w) (hm : |m| ≤ 9999999999999999)
    (h10 : m % 10 ≠ 0) : canonical w = true ∧ w ≠ nan := by
  rcases h with ⟨-, -, rfl⟩ | ⟨-, -, rfl⟩ | ⟨he, h⟩ | ⟨he, he', rfl⟩
  · decide
  · decide
  · exact h.canonical (ne_zero_of_mod_ten h10) hm he
  · exact canonical_pack hm h10 he he'

/-- The machine's saturation follows the steps of R100 for a mantissa of the sign of `x`. -/
theorem saturatesTo_saturate {x : ℚ} {m e : ℤ} (hx : x ≠ 0) (hm : m ≠ 0) (hsign : 0 < m ↔ 0 < x) :
    SaturatesTo x m e (saturate m e) := by
  have hmin : Config.minExponent = -255 := rfl
  have hmax : Config.maxExponent = 255 := rfl
  rw [saturate, hmin, hmax]
  by_cases hover : e < -255
  · rw [if_pos hover, saturatesTo_iff_of_overflow hover]
    rcases hx.lt_or_gt with neg | pos
    · exact .inr ⟨neg, if_neg (hsign.not.mpr neg.not_gt)⟩
    · exact .inl ⟨pos, if_pos (hsign.mpr pos)⟩
  · rw [if_neg hover]
    by_cases hunder : 255 < e
    · rw [if_pos hunder, saturatesTo_iff_of_underflow hunder]
      exact underflowsTo_underflow hm hunder
    · rw [if_neg hunder, saturatesTo_iff_of_range (not_lt.mp hover) (not_lt.mp hunder)]

/-! ## The machine's Canon (R100, R101, R105) -/

theorem roundsTo_roundScaled (n : ℤ) {d : ℕ} (hd : 0 < d) (k : ℤ) :
    RoundsTo ((n : ℚ) / d * (10 : ℚ) ^ k) (roundScaled n d k) := by
  unfold roundScaled
  split
  · next nonneg =>
    have h := roundsTo_roundHE (n * 10 ^ k.toNat) hd
    have hpow : (10 : ℚ) ^ k = 10 ^ k.toNat := by rw [← zpow_natCast, Int.toNat_of_nonneg nonneg]
    rw [hpow, div_mul_eq_mul_div]
    exact_mod_cast h
  · next neg =>
    have h := roundsTo_roundHE n (d := d * 10 ^ (-k).toNat) (by positivity)
    have hpow : (10 : ℚ) ^ k = ((10 : ℚ) ^ (-k).toNat)⁻¹ := by
      rw [← zpow_natCast, Int.toNat_of_nonneg (by omega), zpow_neg, inv_inv]
    rw [hpow, ← div_eq_mul_inv, div_div]
    exact_mod_cast h

theorem Exact.toRat_eq_zero_iff {x : Exact} (hd : 0 < x.den) : x.toRat = 0 ↔ x.num = 0 := by
  have hden : (x.den : ℚ) ≠ 0 := by positivity
  have hpow : (10 : ℚ) ^ (-x.scale) ≠ 0 := by positivity
  rw [Exact.toRat, mul_eq_zero, or_iff_left hpow, div_eq_zero_iff, or_iff_left hden, Int.cast_eq_zero]

/-- The position of the leading digit of an exact rational. -/
theorem Exact.position {x : Exact} (hd : 0 < x.den) (hn : x.num ≠ 0) :
    (10 : ℚ) ^ (magnitude x.num.natAbs x.den - x.scale) ≤ |x.toRat| ∧
      |x.toRat| < (10 : ℚ) ^ (magnitude x.num.natAbs x.den - x.scale + 1) := by
  obtain ⟨low, high⟩ := magnitude_spec (Int.natAbs_pos.mpr hn) hd
  have hpow : (0 : ℚ) < (10 : ℚ) ^ (-x.scale) := by positivity
  have habs : |x.toRat| = (x.num.natAbs : ℚ) / x.den * (10 : ℚ) ^ (-x.scale) := by
    rw [Exact.toRat, abs_mul, abs_div, Nat.abs_cast, abs_of_pos hpow, Nat.cast_natAbs, Int.cast_abs]
  rw [habs, sub_add_eq_add_sub, sub_eq_add_neg, sub_eq_add_neg, zpow_add₀ (by norm_num), zpow_add₀ (by norm_num)]
  constructor <;> gcongr

/-- The machine's Canon of a nonzero value saturates the value's rounding to 16 digits. -/
theorem Exact.exists_canon_eq_saturate {x : Exact} (hd : 0 < x.den) (hn : x.num ≠ 0) :
    ∃ m e, RoundsTo16 x.toRat m e ∧ canon x = saturate m e := by
  rw [canon, if_neg hn]
  obtain ⟨low, high⟩ := x.position hd hn
  have hround := roundsTo_roundScaled x.num hd (15 - magnitude x.num.natAbs x.den)
  generalize magnitude x.num.natAbs x.den = k at low high hround ⊢
  have hscale : (x.num : ℚ) / x.den * (10 : ℚ) ^ (15 - k) = x.toRat * (10 : ℚ) ^ (15 - (k - x.scale)) := by
    rw [Exact.toRat, mul_assoc, ← zpow_add₀ (by norm_num)]
    congr 2
    ring
  rw [hscale] at hround
  obtain ⟨hlow, -⟩ := abs_bounds_of_roundsTo low high hround
  have hne : roundScaled x.num x.den (15 - k) ≠ 0 := by
    intro h0
    simp [h0] at hlow
  exact ⟨_, _, ⟨k - x.scale, _, low, high, hround, sub_add 15 k x.scale ▸ strip_spec _ hne⟩, rfl⟩

theorem canon_of_num_zero {x : Exact} (h : x.num = 0) : canon x = zero := if_pos h

theorem isCanon_canon {x : Exact} (hd : 0 < x.den) : IsCanon x.toRat (canon x) := by
  by_cases hn : x.num = 0
  · rw [(Exact.toRat_eq_zero_iff hd).mpr hn, canon_of_num_zero hn, isCanon_zero_iff]
  · have hx : x.toRat ≠ 0 := (Exact.toRat_eq_zero_iff hd).not.mpr hn
    obtain ⟨m, e, hround, heq⟩ := x.exists_canon_eq_saturate hd hn
    rw [heq, isCanon_iff hx]
    exact ⟨m, e, hround, saturatesTo_saturate hx hround.ne_zero (hround.pos_iff hx)⟩

/-- Settles O16: the machine rounds to 16 digits and strips by its primitives, then saturates as R100 does. -/
theorem canonFollowsItsSteps : Obligations.CanonFollowsItsSteps :=
  fun _ => isCanon_canon

theorem isCanon_unique {x : ℚ} {w w' : Word} (h : IsCanon x w) (h' : IsCanon x w') : w = w' := by
  by_cases hx : x = 0
  · subst hx
    rw [(isCanon_zero_iff w).mp h, (isCanon_zero_iff w').mp h']
  · obtain ⟨m, e, hround, hsat⟩ := (isCanon_iff hx w).mp h
    obtain ⟨m', e', hround', hsat'⟩ := (isCanon_iff hx w').mp h'
    obtain ⟨rfl, rfl⟩ := roundsTo16_unique hround hround'
    exact saturatesTo_unique hsat hsat'

/-- Settles O17: the steps are unique, and the machine follows them. -/
theorem canonIsAFunctionOfTheValue : Obligations.CanonIsAFunctionOfTheValue :=
  ⟨fun _ _ _ => isCanon_unique, fun _ _ hx hy h => isCanon_unique (h ▸ isCanon_canon hx) (isCanon_canon hy)⟩

theorem IsCanon.canonical {x : ℚ} {w : Word} (h : IsCanon x w) : canonical w = true ∧ w ≠ nan := by
  by_cases hx : x = 0
  · subst hx
    rw [(isCanon_zero_iff w).mp h]
    decide
  · obtain ⟨m, e, hround, hsat⟩ := (isCanon_iff hx w).mp h
    exact hsat.canonical hround.abs_le hround.no_trailing_zero

theorem IsCanon.neg {x : ℚ} {w : Word} (h : IsCanon x w) : IsCanon (-x) (negWord w) := by
  by_cases hx : x = 0
  · subst hx
    rw [(isCanon_zero_iff w).mp h, neg_zero, isCanon_zero_iff]
    decide
  · obtain ⟨m, e, hround, hsat⟩ := (isCanon_iff hx w).mp h
    exact (isCanon_iff (neg_ne_zero.mpr hx) _).mpr ⟨-m, e, hround.neg, hsat.neg⟩

theorem Exact.ofParts_toRat (m e : ℤ) : (Exact.ofParts m e).toRat = (m : ℚ) * (10 : ℚ) ^ (-e) := by
  rw [Exact.toRat, Exact.ofParts, Nat.cast_one, div_one]

theorem val_toRat (w : Word) : (val w).toRat = ratVal w := Exact.ofParts_toRat _ _

/-- Canon of a finite canonical word's value: its mantissa survives the rounding, its exponent the saturation. -/
theorem canon_val {w : Word} (hc : canonical w = true) (hf : isFiniteWord w = true) : canon (val w) = w := by
  have hcanon : IsCanon (ratVal w) (canon (val w)) := val_toRat w ▸ isCanon_canon (x := val w) Nat.one_pos
  rcases (canonical_iff w).mp hc with hs | hz | ⟨he, he', hm, hle, h10⟩
  · exact absurd ((sentinel_iff w).mp hs).1 ((isFiniteWord_iff w).mp hf)
  · rw [(eq_zero_iff w).mpr hz]
    decide
  · obtain ⟨m, e, hround, hsat⟩ := (isCanon_iff ((ratVal_eq_zero_iff w).not.mpr hm) _).mp hcanon
    obtain ⟨rfl, rfl⟩ := hround.eq_of_exact hle h10
    rw [saturatesTo_iff_of_range he he'] at hsat
    exact hsat.trans (pack_fields w)

/-- Settles O18: each part of R100 keeps the range of R35, leaves a canonical word alone and commutes with negation. -/
theorem canonIsCanonicalIdempotentAndOdd : Obligations.CanonIsCanonicalIdempotentAndOdd :=
  ⟨fun _ _ => IsCanon.canonical, fun _ => canon_val, fun _ _ => IsCanon.neg⟩

/-! ## Unit 0 (R110 to R116) -/

/-- Settles O21: the exact value of the parts is the one that Canon is given. -/
theorem fromPartsGivesCanonOfItsValue : Obligations.FromPartsGivesCanonOfItsValue := by
  rintro s a n rfl rfl
  refine ⟨_, ?_, succeed_eq s _⟩
  have h := isCanon_canon (x := Exact.ofParts (signed64 s.latched.opa) (signed32 s.latched.opn)) Nat.one_pos
  rwa [Exact.ofParts_toRat] at h

/-- Packing two signed port values keeps their low bits. -/
theorem pack_toInt (a : Word) (n : Half) :
    pack a.toInt n.toInt = (a.extractLsb' 0 55 ++ n.extractLsb' 0 9 : BitVec (55 + 9)) := by
  have ha : BitVec.ofInt 55 a.toInt = a.extractLsb' 0 55 :=
    (BitVec.signExtend_eq_setWidth_of_le a (by decide)).trans (BitVec.setWidth_eq_extractLsb' (by decide))
  have hn : BitVec.ofInt 9 n.toInt = n.extractLsb' 0 9 :=
    (BitVec.signExtend_eq_setWidth_of_le n (by decide)).trans (BitVec.setWidth_eq_extractLsb' (by decide))
  rw [pack, ha, hn]

/-- Settles O19: PACK completes with the packed port values, whose low bits `pack` keeps. -/
theorem packAssemblesTheFields : Obligations.PackAssemblesTheFields := by
  rintro s a n rfl rfl
  rw [← pack_toInt]
  exact succeed_eq s _

/-- The sign-extended mantissa field is the arithmetic right shift by 9. -/
theorem word64_mant (a : Word) : word64 (mant a) = a.sshiftRight 9 := by
  change (a.extractLsb' 9 55).signExtend 64 = a.sshiftRight 9
  apply BitVec.eq_of_getLsbD_eq
  intro i hi
  rw [BitVec.getLsbD_signExtend, BitVec.getLsbD_sshiftRight, BitVec.getLsbD_extractLsb']
  by_cases low : i < 55
  · simp [hi, low, show 9 + i < 64 by omega]
  · simp [hi, low, show ¬9 + i < 64 by omega, BitVec.msb_eq_getLsbD_last]

theorem word64_expo (a : Word) : word64 (expo a) = (a.extractLsb' 0 9).signExtend 64 := rfl

theorem word64_isFiniteWord (a : Word) :
    word64 (if isFiniteWord a then 1 else 0) = if a.extractLsb' 0 9 = 0x100#9 then 0#64 else 1#64 := by
  unfold isFiniteWord
  by_cases h : a.extractLsb' 0 9 = 0x100#9
  · simp [h, word64]
  · simp [h, word64]

/-- Settles O20: each command completes with a 64-bit pattern that is an operation on the bits of OPA. -/
theorem unpackAndIsFiniteReadTheFields : Obligations.UnpackAndIsFiniteReadTheFields := by
  rintro s a rfl
  rw [← word64_mant, ← word64_expo, ← word64_isFiniteWord]
  exact ⟨succeed_eq s _, succeed_eq s _, succeed_eq s _⟩

/-- Among canonical words the finite ones are those that are no sentinel. -/
theorem canonical_and_isFiniteWord_iff (w : Word) :
    (canonical w && isFiniteWord w) = true ↔ canonical w = true ∧ w ≠ nan ∧ w ≠ pinf ∧ w ≠ ninf := by
  rw [Bool.and_eq_true]
  refine and_congr_right fun hc => ?_
  have sentinel : (w = nan ∨ w = pinf ∨ w = ninf) ↔ expo w = -256 := by
    refine ⟨fun hs => ((sentinel_iff w).mp hs).1, fun he => ?_⟩
    rcases (canonical_iff w).mp hc with hs | ⟨-, he'⟩ | ⟨he', -⟩
    · exact hs
    · omega
    · omega
  rw [isFiniteWord_iff, ne_eq, ← sentinel, not_or, not_or]

/-- Settles O22: both commands go by their test, that of VALIDATE_FINITE by being no sentinel. -/
theorem validateGivesTheWordOrInvalidValue : Obligations.ValidateGivesTheWordOrInvalidValue := by
  rintro s a rfl
  simp only [apply_ite Host.Outcome.next, ← canonical_and_isFiniteWord_iff]
  exact ⟨rfl, rfl⟩

/-! ## Operand admission (R106) -/

/-- Each of the twelve commands with word operands admits OPA before anything else. -/
theorem exec_admits_opa {i : Instr}
    (hi : i ∈ [Instr.add, .sub, .neg, .abs, .mul, .div, .round, .cmp, .min, .max, .eq, .format]) (s : State) :
    ∃ k, exec i s = requireCanonical s.latched.opa k := by
  cases i with
  | add | sub | neg | abs | mul | div | round | cmp | min | max | eq | format => exact ⟨_, rfl⟩
  | pack | unpackM | unpackE | isFinite | fromParts | validate | validateFinite | parse => simp at hi

/-- Each command with OPB admits it right after OPA. -/
theorem exec_admits_opb {i : Instr} (hi : i ∈ [Instr.add, .sub, .mul, .div, .cmp, .min, .max, .eq]) (s : State) :
    ∃ k, exec i s = requireCanonical s.latched.opa (requireCanonical s.latched.opb k) := by
  cases i with
  | add | sub | mul | div | cmp | min | max | eq => exact ⟨_, rfl⟩
  | pack | unpackM | unpackE | isFinite | fromParts | validate | validateFinite | neg | abs | round | parse | format =>
    simp at hi

/-- The six commands that admit no operand complete on every word. -/
theorem exec_completes_of_any_word {i : Instr}
    (hi : i ∈ [Instr.pack, .unpackM, .unpackE, .isFinite, .validate, .validateFinite]) (s : State) :
    ∃ t, exec i s = .next t := by
  cases i with
  | pack | unpackM | unpackE | isFinite => exact ⟨_, succeed_eq s _⟩
  | validate => exact ⟨_, (validateGivesTheWordOrInvalidValue s _ rfl).1⟩
  | validateFinite => exact ⟨_, (validateGivesTheWordOrInvalidValue s _ rfl).2⟩
  | fromParts | add | sub | neg | abs | mul | div | round | cmp | min | max | eq | parse | format => simp at hi

/-- Settles O23: a fault is that of the first admission that fails. -/
theorem nonCanonicalOperandsFault : Obligations.NonCanonicalOperandsFault := by
  intro i s
  refine ⟨fun hi ha => ?_, fun hi ha hb => ?_, fun hi => exec_completes_of_any_word hi s⟩
  · obtain ⟨k, e⟩ := exec_admits_opa hi s
    rw [e, requireCanonical_not k ha]
  · obtain ⟨k, e⟩ := exec_admits_opb hi s
    rw [e, requireCanonical_of _ ha, requireCanonical_not k hb]

end Sys2Proof.Machine

/-!
PROOFS. The adder (41_adder.md): the exact sum of two finite words and its Canon (R141), the table of the sentinels
(R140), and words that differ in the sign of the mantissa only (R144, R145), from which the four commands of unit 1 and
the properties of R146 follow. The product's commutativity (42_multiplier.md R163) stands beside the sum's.
-/
namespace Sys2Proof.Machine

open Sys2Proof

/-! ## The exact sum (R141) -/

/-- A numerator written over a larger scale. -/
theorem Exact.toRat_eq_scaled (x : Exact) {e : ℤ} (h : x.scale ≤ e) :
    x.toRat = (x.num : ℚ) * 10 ^ (e - x.scale).toNat / x.den * (10 : ℚ) ^ (-e) := by
  have hexp : -x.scale = ((e - x.scale).toNat : ℤ) + -e := by omega
  rw [Exact.toRat, hexp, zpow_add₀ (by norm_num), zpow_natCast]
  ring

theorem Exact.add_toRat {x y : Exact} (hx : 0 < x.den) (hy : 0 < y.den) : (x.add y).toRat = x.toRat + y.toRat := by
  have hx' : (x.den : ℚ) ≠ 0 := by positivity
  have hy' : (y.den : ℚ) ≠ 0 := by positivity
  have hxs : (max x.scale y.scale - x.scale).toNat = (y.scale - x.scale).toNat := by omega
  have hys : (max x.scale y.scale - y.scale).toNat = (x.scale - y.scale).toNat := by omega
  rw [x.toRat_eq_scaled (le_max_left _ y.scale), y.toRat_eq_scaled (le_max_right x.scale _), hxs, hys, Exact.toRat,
    Exact.add]
  push_cast
  field_simp

theorem addWords_of_finite {a b : Word} (fa : isFiniteWord a = true) (fb : isFiniteWord b = true) :
    addWords a b = canon ((val a).add (val b)) :=
  if_pos (by rw [fa, fb, Bool.and_self])

/-- With a sentinel the machine's sum is the table's word. -/
theorem addWords_of_not_finite {a b : Word} (h : ¬(isFiniteWord a = true ∧ isFiniteWord b = true)) :
    addWords a b = addNonfinite a b :=
  if_neg (by rwa [Bool.and_eq_true])

/-- On finite words the machine's sum follows R141. -/
theorem isCanon_addWords {a b : Word} (fa : isFiniteWord a = true) (fb : isFiniteWord b = true) :
    IsCanon (ratVal a + ratVal b) (addWords a b) := by
  have h := isCanon_canon (x := (val a).add (val b)) Nat.one_pos
  rwa [Exact.add_toRat Nat.one_pos Nat.one_pos, val_toRat, val_toRat, ← addWords_of_finite fa fb] at h

theorem ne_nan_of_finite {w : Word} (h : isFiniteWord w = true) : w ≠ nan := by
  rintro rfl
  exact absurd h (by decide)

theorem isSum_addWords (a b : Word) : IsSum a b (addWords a b) := by
  by_cases h : isFiniteWord a = true ∧ isFiniteWord b = true
  · obtain ⟨fa, fb⟩ := h
    simpa [IsSum, ne_nan_of_finite fa, ne_nan_of_finite fb, fa, fb] using isCanon_addWords fa fb
  · rw [addWords_of_not_finite h]
    unfold IsSum addNonfinite
    split_ifs with _ _ _ ha hb
    · rfl
    · rfl
    · rfl
    · rfl
    · rfl
    · exact absurd ⟨Bool.eq_true_of_not_eq_false ha, Bool.eq_true_of_not_eq_false hb⟩ h

/-- Settles O24: the machine's sum is the sum for all words, and the admitted ones complete with it. -/
theorem addGivesTheRoundedSum : Obligations.AddGivesTheRoundedSum :=
  fun _ a b ha hb ca cb => ⟨_, isSum_addWords a b, binaryWord_completes addWords ha hb ca cb⟩

/-- Settles O25: SUB completes with the machine's sum of the first operand and the negated second. -/
theorem subAddsTheNegation : Obligations.SubAddsTheNegation :=
  fun _ a b ha hb ca cb =>
    ⟨_, isSum_addWords a (negWord b), binaryWord_completes (fun a b => addWords a (negWord b)) ha hb ca cb⟩

/-! ## Words of one magnitude (R144, R145) -/

/-- The forms of R35 do not see the sign of the mantissa. -/
theorem canonical_of_abs_mant_eq {a w : Word} (ca : canonical a = true) (hm : |mant w| = |mant a|)
    (he : expo w = expo a) : canonical w = true := by
  rw [canonical_iff, sentinel_iff] at ca ⊢
  rw [Int.abs_eq_natAbs, Int.abs_eq_natAbs] at *
  omega

/-- The mantissa field holds both signs of a canonical word's mantissa. -/
theorem abs_mant_le_of_canonical {a : Word} (ca : canonical a = true) : |mant a| ≤ 2 ^ 54 - 1 := by
  rw [canonical_iff, sentinel_iff] at ca
  rw [Int.abs_eq_natAbs] at *
  omega

/-- A canonical word's exponent packed under a mantissa of the same magnitude. -/
theorem pack_of_abs_eq {a : Word} {m : ℤ} (ca : canonical a = true) (hm : |m| = |mant a|) :
    mant (pack m (expo a)) = m ∧ expo (pack m (expo a)) = expo a ∧ canonical (pack m (expo a)) = true := by
  obtain ⟨low, high⟩ := abs_le.mp (hm ▸ abs_mant_le_of_canonical ca)
  obtain ⟨elow, ehigh⟩ := expo_range a
  have hmant : mant (pack m (expo a)) = m := mant_pack_of_range _ (by omega) high
  have hexpo : expo (pack m (expo a)) = expo a := expo_pack_of_range m elow ehigh
  exact ⟨hmant, hexpo, canonical_of_abs_mant_eq ca (by rw [hmant, hm]) hexpo⟩

theorem negWord_fields {a : Word} (ca : canonical a = true) :
    mant (negWord a) = -mant a ∧ expo (negWord a) = expo a ∧ canonical (negWord a) = true :=
  pack_of_abs_eq ca (abs_neg _)

theorem absWord_fields {a : Word} (ca : canonical a = true) :
    mant (absWord a) = |mant a| ∧ expo (absWord a) = expo a ∧ canonical (absWord a) = true := by
  have h := pack_of_abs_eq ca (abs_abs (mant a))
  rwa [Int.abs_eq_natAbs] at h ⊢

/-- Settles O26: both results pack a mantissa of the operand's magnitude under its exponent. -/
theorem negAndAbsChangeTheMantissaOnly : Obligations.NegAndAbsChangeTheMantissaOnly := by
  intro s a ha ca
  obtain ⟨nm, ne, nc⟩ := negWord_fields ca
  obtain ⟨am, ae, ac⟩ := absWord_fields ca
  exact ⟨⟨_, nm, ne, nc, unaryWord_completes negWord ha ca⟩, ⟨_, am, ae, ac, unaryWord_completes absWord ha ca⟩⟩

/-! ## Commutativity (R146 (a), 42_multiplier.md R163 (a)) -/

theorem Exact.add_comm (x y : Exact) : x.add y = y.add x := by
  rw [Exact.add, Exact.add, Int.add_comm, Nat.mul_comm, max_comm]

theorem Exact.mul_comm (x y : Exact) : x.mul y = y.mul x := by
  rw [Exact.mul, Exact.mul, Int.mul_comm, Nat.mul_comm, Int.add_comm]

/-- The table of R140 is symmetric in its own cases, where a sentinel is involved. -/
theorem addNonfinite_comm {a b : Word} (h : ¬(isFiniteWord a = true ∧ isFiniteWord b = true)) :
    addNonfinite a b = addNonfinite b a := by
  by_cases hnan : a = nan ∨ b = nan
  · rw [addNonfinite, addNonfinite, if_pos hnan, if_pos hnan.symm]
  · rw [addNonfinite, addNonfinite, if_neg hnan, if_neg (mt Or.symm hnan)]
    cases fa : isFiniteWord a <;> cases fb : isFiniteWord b
    · by_cases hab : a = b
      · simp [hab]
      · simp [hab, Ne.symm hab]
    · simp
    · simp
    · exact absurd ⟨fa, fb⟩ h

theorem addWords_comm (a b : Word) : addWords a b = addWords b a := by
  by_cases h : isFiniteWord a = true ∧ isFiniteWord b = true
  · obtain ⟨fa, fb⟩ := h
    rw [addWords_of_finite fa fb, addWords_of_finite fb fa, Exact.add_comm]
  · rw [addWords_of_not_finite h, addWords_of_not_finite (mt And.symm h), addNonfinite_comm h]

theorem signedInfinity_comm (m n : ℤ) : signedInfinity m n = signedInfinity n m := by
  rw [signedInfinity, signedInfinity, sameSign, sameSign, Bool.xor_comm]

theorem mulNonfinite_comm (a b : Word) : mulNonfinite a b = mulNonfinite b a := by
  simp only [mulNonfinite, or_comm, signedInfinity_comm]

theorem mulWords_comm (a b : Word) : mulWords a b = mulWords b a := by
  rw [mulWords, mulWords, Bool.and_comm, Exact.mul_comm, mulNonfinite_comm]

/-- A command whose function is symmetric completes with one word on exchanged operands. -/
theorem binaryWord_completes_exchanged {f : Word → Word → Word} (hf : ∀ a b, f a b = f b a) {s s' : State} {a b : Word}
    (ha : s.latched.opa = a) (hb : s.latched.opb = b) (hb' : s'.latched.opa = b) (ha' : s'.latched.opb = a)
    (ca : canonical a = true) (cb : canonical b = true) :
    ∃ w, binaryWord s f = .next (afterOk s w) ∧ binaryWord s' f = .next (afterOk s' w) :=
  ⟨f a b, binaryWord_completes f ha hb ca cb, hf b a ▸ binaryWord_completes f hb' ha' cb ca⟩

/-- Settles O31: the machine's sum and product are symmetric on all words. -/
theorem addAndMulCommute : Obligations.AddAndMulCommute :=
  fun _ _ _ _ ha hb hb' ha' ca cb =>
    ⟨binaryWord_completes_exchanged addWords_comm ha hb hb' ha' ca cb,
      binaryWord_completes_exchanged mulWords_comm ha hb hb' ha' ca cb⟩

/-! ## Identity and inverse (R146 (b)) -/

/-- A finite canonical word is Canon of its own value. -/
theorem isCanon_ratVal {a : Word} (ca : canonical a = true) (fa : isFiniteWord a = true) : IsCanon (ratVal a) a := by
  have h := isCanon_canon (x := val a) Nat.one_pos
  rwa [val_toRat, canon_val ca fa] at h

theorem addWords_zero {a : Word} (ca : canonical a = true) (fa : isFiniteWord a = true) : addWords a zero = a := by
  have h := isCanon_addWords fa (b := zero) (by decide)
  rw [(ratVal_eq_zero_iff zero).mpr (by decide), add_zero] at h
  exact isCanon_unique h (isCanon_ratVal ca fa)

theorem ratVal_negWord {a : Word} (ca : canonical a = true) : ratVal (negWord a) = -ratVal a := by
  obtain ⟨hm, he, -⟩ := negWord_fields ca
  rw [ratVal, ratVal, hm, he, Int.cast_neg, neg_mul]

theorem addWords_negWord {a : Word} (ca : canonical a = true) (fa : isFiniteWord a = true) :
    addWords a (negWord a) = zero := by
  obtain ⟨-, he, -⟩ := negWord_fields ca
  have fn : isFiniteWord (negWord a) = true := by rwa [isFiniteWord_iff, he, ← isFiniteWord_iff]
  have h := isCanon_addWords fa fn
  rwa [ratVal_negWord ca, add_neg_cancel, isCanon_zero_iff] at h

/-- Settles O32: both second operands are canonical, and Canon is determined by the value of the sum. -/
theorem addHasIdentityAndInverse : Obligations.AddHasIdentityAndInverse := by
  intro s a ha ca fa
  constructor
  · intro hb
    have h := binaryWord_completes addWords ha hb ca (by decide)
    rwa [addWords_zero ca fa] at h
  · intro hb
    obtain ⟨-, -, cn⟩ := negWord_fields ca
    have h := binaryWord_completes (b := negWord a) addWords ha hb ca cn
    rwa [addWords_negWord ca fa] at h

end Sys2Proof.Machine

/-!
PROOFS. The multiplier (42_multiplier.md): the exact product of two finite words and its Canon (R161), the table of the
sentinels (R160), and the saturation of a product whose exponent sum lies below −255 (R163 (b)).
-/
namespace Sys2Proof.Machine

open Sys2Proof

/-! ## The exact product (R161) -/

theorem ratVal_mul_ratVal (a b : Word) :
    ratVal a * ratVal b = ((mant a * mant b : ℤ) : ℚ) * (10 : ℚ) ^ (-(expo a + expo b)) := by
  rw [ratVal, ratVal, mul_mul_mul_comm, neg_add, zpow_add₀ (by norm_num), Int.cast_mul]

theorem mulWords_of_finite {a b : Word} (fa : isFiniteWord a = true) (fb : isFiniteWord b = true) :
    mulWords a b = canon (Exact.ofParts (mant a * mant b) (expo a + expo b)) :=
  if_pos (by rw [fa, fb, Bool.and_self])

/-- With a sentinel the machine's product is the table's word. -/
theorem mulWords_of_not_finite {a b : Word} (h : ¬(isFiniteWord a = true ∧ isFiniteWord b = true)) :
    mulWords a b = mulNonfinite a b :=
  if_neg (by rwa [Bool.and_eq_true])

/-- On finite words the machine's product follows R161. -/
theorem isCanon_mulWords {a b : Word} (fa : isFiniteWord a = true) (fb : isFiniteWord b = true) :
    IsCanon (ratVal a * ratVal b) (mulWords a b) := by
  rw [mulWords_of_finite fa fb, ratVal_mul_ratVal, ← Exact.ofParts_toRat]
  exact isCanon_canon Nat.one_pos

/-! ## The table of the sentinels (R160) -/

/-- The machine's sign test in the form of R160 and R170: on nonzero integers not negative is positive. -/
theorem signedInfinity_eq_of_pos_eq {m n : ℤ} (hm : m ≠ 0) (hn : n ≠ 0) :
    signedInfinity m n = if (0 < m) = (0 < n) then pinf else ninf := by
  have same : sameSign m n = true ↔ (0 < m) = (0 < n) := by
    rw [sameSign_iff, eq_iff_iff]
    omega
  simp only [signedInfinity, same]

theorem isProduct_mulWords (a b : Word) : IsProduct a b (mulWords a b) := by
  by_cases h : isFiniteWord a = true ∧ isFiniteWord b = true
  · obtain ⟨fa, fb⟩ := h
    rw [IsProduct, if_pos ⟨fa, fb⟩]
    exact isCanon_mulWords fa fb
  · rw [mulWords_of_not_finite h, IsProduct, if_neg h, mulNonfinite]
    by_cases hzero : mant a = 0 ∨ mant b = 0
    · rw [if_pos hzero, if_pos hzero]
    · obtain ⟨ha, hb⟩ := not_or.mp hzero
      rw [if_neg hzero, if_neg hzero, signedInfinity_eq_of_pos_eq ha hb]
      split <;> rfl

/-- Settles O27: the machine's product is the product for all words, and the admitted ones complete with it. -/
theorem mulGivesTheRoundedProduct : Obligations.MulGivesTheRoundedProduct :=
  fun _ a b ha hb ca cb => ⟨_, isProduct_mulWords a b, binaryWord_completes mulWords ha hb ca cb⟩

/-! ## Overflow to an infinity, and products with ZERO (R163 (b), (d)) -/

/-- Rounding to 16 digits and stripping never leave more fractional digits than the value was written with: they come from
the position of the leading digit or, where no digit is lost, from stripping the mantissa itself. -/
theorem RoundsTo16.exponent_le {m e m2 e2 : ℤ} (h : RoundsTo16 ((m : ℚ) * (10 : ℚ) ^ (-e)) m2 e2) (hm : m ≠ 0) :
    e2 ≤ e := by
  obtain ⟨p, m1, -, -, hround, hstrip⟩ := h
  rcases le_total (15 - p) e with hle | hle
  · exact hstrip.exponent_le.trans hle
  · obtain ⟨k, hk⟩ := Int.le.dest hle
    have hscale : (m : ℚ) * (10 : ℚ) ^ (-e) * (10 : ℚ) ^ (15 - p) = ((m * 10 ^ k : ℤ) : ℚ) := by
      rw [← hk, mul_assoc, ← zpow_add₀ (by norm_num), neg_add_cancel_left, zpow_natCast]
      push_cast
      rfl
    rw [hscale] at hround
    obtain rfl := roundsTo_unique hround (roundsTo_intCast _)
    obtain ⟨j, hj, he, h10⟩ := strip_spec e hm
    have hwhole : StripsTo (m * 10 ^ k) (15 - p) (strip m e).1 (strip m e).2 :=
      ⟨j + k, by rw [pow_add, ← mul_assoc, ← hj], by push_cast; omega, h10⟩
    obtain ⟨-, rfl⟩ := stripsTo_unique hstrip hwhole
    omega

/-- Canon of a nonzero integer with an exponent below −255 is the infinity of its sign. -/
theorem IsCanon.eq_infinity_of_overflow {m e : ℤ} {w : Word} (h : IsCanon ((m : ℚ) * (10 : ℚ) ^ (-e)) w) (hm : m ≠ 0)
    (he : e < -255) : w = if 0 < m then pinf else ninf := by
  have hpow : (0 : ℚ) < (10 : ℚ) ^ (-e) := by positivity
  have hx : (m : ℚ) * (10 : ℚ) ^ (-e) ≠ 0 := mul_ne_zero (Int.cast_ne_zero.mpr hm) hpow.ne'
  obtain ⟨m2, e2, hround, hsat⟩ := (isCanon_iff hx w).mp h
  have hsign : 0 < (m : ℚ) * (10 : ℚ) ^ (-e) ↔ 0 < m := by rw [mul_pos_iff_of_pos_right hpow, Int.cast_pos]
  rcases (saturatesTo_iff_of_overflow ((hround.exponent_le hm).trans_lt he) w).mp hsat with ⟨pos, rfl⟩ | ⟨neg, rfl⟩
  · rw [if_pos (hsign.mp pos)]
  · rw [if_neg (hsign.not.mp neg.not_gt)]

theorem mant_ne_zero_of_finite {a : Word} (ca : canonical a = true) (fa : isFiniteWord a = true) (ha : a ≠ zero) :
    mant a ≠ 0 := by
  rcases finite_canonical_cases ca fa with hz | h10
  · exact absurd ((eq_zero_iff a).mpr hz) ha
  · exact ne_zero_of_mod_ten h10

theorem mulWords_of_overflow {a b : Word} (fa : isFiniteWord a = true) (fb : isFiniteWord b = true) (ha : mant a ≠ 0)
    (hb : mant b ≠ 0) (he : expo a + expo b < -255) :
    mulWords a b = if 0 < mant a * mant b then pinf else ninf := by
  have h := isCanon_mulWords fa fb
  rw [ratVal_mul_ratVal] at h
  exact h.eq_infinity_of_overflow (mul_ne_zero ha hb) he

theorem zero_mulWords {b : Word} (fb : isFiniteWord b = true) : mulWords zero b = zero := by
  have h := isCanon_mulWords (a := zero) (by decide) fb
  rwa [(ratVal_eq_zero_iff zero).mpr (by decide), zero_mul, isCanon_zero_iff] at h

/-- Settles O33: a nonzero product of such an exponent saturates, and ZERO annihilates from either side. -/
theorem mulOverflowsToTheSignedInfinity : Obligations.MulOverflowsToTheSignedInfinity := by
  intro s a b ha hb ca cb fa fb
  have completes : exec .mul s = .next (afterOk s (mulWords a b)) := binaryWord_completes mulWords ha hb ca cb
  rw [completes]
  constructor
  · intro za zb he
    rw [mulWords_of_overflow fa fb (mant_ne_zero_of_finite ca fa za) (mant_ne_zero_of_finite cb fb zb) he]
  · rintro (rfl | rfl)
    · rw [zero_mulWords fb]
    · rw [mulWords_comm, zero_mulWords fa]

end Sys2Proof.Machine

/-!
PROOFS. The divider (43_divider.md): the exact quotient of two finite words and its Canon (R171), and the rows for the
sentinels and ZERO (R170).
-/
namespace Sys2Proof.Machine

open Sys2Proof

/-! ## The exact quotient (R171) -/

/-- The divisor's sign moves to the numerator, its magnitude to the denominator. -/
theorem sign_div_natAbs (n : ℤ) : (sign n : ℚ) / (n.natAbs : ℚ) = (n : ℚ)⁻¹ := by
  rw [Nat.cast_natAbs, Int.cast_abs]
  unfold sign
  split_ifs with neg hzero
  · rw [abs_of_neg (Int.cast_lt_zero.mpr neg), Int.cast_neg, Int.cast_one, neg_div_neg_eq, one_div]
  · simp [hzero]
  · have pos : 0 < n := by omega
    rw [abs_of_pos (Int.cast_pos.mpr pos), Int.cast_one, one_div]

theorem Exact.div_toRat (x y : Exact) : (x.div y).toRat = x.toRat / y.toRat := by
  have hscale : (10 : ℚ) ^ (-(x.scale - y.scale)) = (10 : ℚ) ^ (-x.scale) / (10 : ℚ) ^ (-y.scale) := by
    rw [neg_sub', zpow_sub₀ (by norm_num)]
  calc (x.div y).toRat
    _ = (x.num : ℚ) / x.den * (10 : ℚ) ^ (-(x.scale - y.scale)) * y.den * ((sign y.num : ℚ) / (y.num.natAbs : ℚ)) := by
      rw [Exact.toRat, Exact.div]
      push_cast
      ring
    _ = x.toRat / y.toRat := by
      rw [sign_div_natAbs, hscale, Exact.toRat, Exact.toRat]
      simp only [div_eq_mul_inv, mul_inv, inv_inv]
      ring

theorem divWords_of_finite {a b : Word} (fa : isFiniteWord a = true) (fb : isFiniteWord b = true) (ha : a ≠ zero)
    (hb : b ≠ zero) : divWords a b = canon ((val a).div (val b)) :=
  if_neg (by simp [fa, fb, ha, hb])

/-- With a sentinel or ZERO the machine's quotient is the word of the rows. -/
theorem divWords_of_special {a b : Word}
    (h : ¬(isFiniteWord a = true ∧ isFiniteWord b = true ∧ a ≠ zero ∧ b ≠ zero)) : divWords a b = divSpecial a b :=
  if_pos (by simpa only [not_and_or, Bool.not_eq_true, not_ne_iff] using h)

/-- On finite nonzero words the machine's quotient follows R171. -/
theorem isCanon_divWords {a b : Word} (fa : isFiniteWord a = true) (fb : isFiniteWord b = true) (ha : a ≠ zero)
    (hb : b ≠ zero) (hm : mant b ≠ 0) : IsCanon (ratVal a / ratVal b) (divWords a b) := by
  rw [divWords_of_finite fa fb ha hb, ← val_toRat, ← val_toRat, ← Exact.div_toRat]
  have hden : 0 < ((val a).div (val b)).den := Nat.mul_pos Nat.one_pos (Int.natAbs_pos.mpr hm)
  exact isCanon_canon hden

/-! ## The rows for the sentinels and ZERO (R170) -/

/-- NaN and ZERO are the canonical words without a mantissa. -/
theorem mant_ne_zero_of_canonical {a : Word} (ca : canonical a = true) (hnan : a ≠ nan) (hzero : a ≠ zero) :
    mant a ≠ 0 := by
  rcases (canonical_iff a).mp ca with (rfl | rfl | rfl) | hz | ⟨-, -, hm, -, -⟩
  · exact absurd rfl hnan
  · decide
  · decide
  · exact absurd ((eq_zero_iff a).mpr hz) hzero
  · exact hm

theorem isQuotient_divWords {a b : Word} (ca : canonical a = true) (cb : canonical b = true) :
    IsQuotient a b (divWords a b) := by
  by_cases h : isFiniteWord a = true ∧ isFiniteWord b = true ∧ a ≠ zero ∧ b ≠ zero
  · obtain ⟨fa, fb, ha, hb⟩ := h
    have hm : mant b ≠ 0 := mant_ne_zero_of_finite cb fb hb
    simpa [IsQuotient, ne_nan_of_finite fa, ne_nan_of_finite fb, fa, fb, ha, hb] using isCanon_divWords fa fb ha hb hm
  · rw [divWords_of_special h]
    unfold IsQuotient divSpecial
    by_cases hnan : a = nan ∨ b = nan ∨ b = zero
    · rw [if_pos hnan, if_pos hnan]
    obtain ⟨hna, hnb, hzb⟩ : a ≠ nan ∧ b ≠ nan ∧ b ≠ zero := by simpa only [not_or] using hnan
    rw [if_neg hnan, if_neg hnan]
    by_cases hza : a = zero
    · rw [if_pos hza, if_pos hza]
    rw [if_neg hza, if_neg hza]
    cases fb : isFiniteWord b
    · split <;> simp
    · have fa : isFiniteWord a = false := Bool.eq_false_iff.mpr fun fa => h ⟨fa, fb, hza, hzb⟩
      have hma : mant a ≠ 0 := mant_ne_zero_of_canonical ca hna hza
      have hmb : mant b ≠ 0 := mant_ne_zero_of_canonical cb hnb hzb
      simpa [fa] using signedInfinity_eq_of_pos_eq hma hmb

/-- Settles O28: the machine's quotient is the quotient for all canonical words, and DIV completes with it. -/
theorem divGivesTheRoundedQuotient : Obligations.DivGivesTheRoundedQuotient :=
  fun _ _ _ ha hb ca cb => ⟨_, isQuotient_divWords ca cb, binaryWord_completes divWords ha hb ca cb⟩

end Sys2Proof.Machine

/-!
PROOFS. The rounder (44_rounder.md): the machine's rounding to a multiple of 10^(−N) on either side of `N = expo(a)`
(R180, R181), with its shortcut for a power of ten longer than the mantissa, and the two completions of ROUND (R182).
-/
namespace Sys2Proof.Machine

open Sys2Proof

/-! ## The nearest multiple (R180) -/

/-- With fewer than k digits |m| is at most a tenth of 10^k, so the shortcut to 0 is the rounding. -/
theorem roundsTo_roundPow10 (m : ℤ) (k : ℕ) : RoundsTo ((m : ℚ) / 10 ^ k) (roundPow10 m k) := by
  unfold roundPow10
  split
  · next short =>
    have hle : m.natAbs * 10 ≤ 10 ^ k :=
      calc m.natAbs * 10 ≤ 10 ^ (digits m + 1) := by rw [pow_succ]; gcongr; exact (natAbs_lt_pow_digits m).le
        _ ≤ 10 ^ k := Nat.pow_le_pow_right (by norm_num) short
    have hle' : |(m : ℚ)| * 10 ≤ 10 ^ k := by rw [← Int.cast_abs, ← Nat.cast_natAbs]; exact_mod_cast hle
    have hpow : (0 : ℚ) < 10 ^ k := by positivity
    left
    rw [Int.cast_zero, sub_zero, abs_div, abs_of_pos hpow, div_lt_iff₀ hpow]
    linarith
  · exact_mod_cast roundsTo_roundHE m (d := 10 ^ k) (by positivity)

/-- Where `N ≥ expo(a)` the machine rounds nothing (R181). -/
theorem roundToScale_of_le {a : Word} {n : ℤ} (h : expo a ≤ n) : roundToScale (mant a) (expo a) n = canon (val a) :=
  if_pos h

theorem roundToScale_of_lt {a : Word} {n : ℤ} (h : n < expo a) :
    roundToScale (mant a) (expo a) n = canon (Exact.ofParts (roundPow10 (mant a) (expo a - n).toNat) n) :=
  if_neg h.not_ge

/-- The scaled value of R180 where `N ≥ expo(a)`: an integer. -/
theorem ratVal_mul_pow_of_le {a : Word} {n : ℤ} (h : expo a ≤ n) :
    ratVal a * (10 : ℚ) ^ n = ((mant a * 10 ^ (n - expo a).toNat : ℤ) : ℚ) := by
  rw [ratVal_eq_scaled h, mul_assoc, ← zpow_add₀ (by norm_num), neg_add_cancel, zpow_zero, mul_one]

/-- The scaled value of R180 where `N < expo(a)`: the mantissa without its last `expo(a) − N` digits. -/
theorem ratVal_mul_pow_of_lt {a : Word} {n : ℤ} (h : n < expo a) :
    ratVal a * (10 : ℚ) ^ n = (mant a : ℚ) / 10 ^ (expo a - n).toNat := by
  have hexp : -expo a + n = -((expo a - n).toNat : ℤ) := by omega
  rw [ratVal, mul_assoc, ← zpow_add₀ (by norm_num), hexp, zpow_neg, zpow_natCast, div_eq_mul_inv]

/-- The machine's rounding is Canon of the nearest multiple, for every scale. -/
theorem isCanon_roundToScale (a : Word) (n : ℤ) :
    ∃ r : ℤ, RoundsTo (ratVal a * (10 : ℚ) ^ n) r ∧
      IsCanon ((r : ℚ) * (10 : ℚ) ^ (-n)) (roundToScale (mant a) (expo a) n) := by
  rcases le_or_gt (expo a) n with h | h
  · refine ⟨mant a * 10 ^ (n - expo a).toNat, ratVal_mul_pow_of_le h ▸ roundsTo_intCast _, ?_⟩
    rw [roundToScale_of_le h, ← ratVal_eq_scaled h, ← val_toRat]
    exact isCanon_canon Nat.one_pos
  · refine ⟨roundPow10 (mant a) (expo a - n).toNat, ratVal_mul_pow_of_lt h ▸ roundsTo_roundPow10 _ _, ?_⟩
    rw [roundToScale_of_lt h, ← Exact.ofParts_toRat]
    exact isCanon_canon Nat.one_pos

/-! ## The completions of ROUND (R181, R182) -/

theorem execRound_of_finite {s : State} {a : Word} {n : Half} (ha : s.latched.opa = a) (hn : s.latched.opn = n)
    (ca : canonical a = true) (fa : isFiniteWord a = true) :
    exec .round s = .next (afterOk s (roundToScale (mant a) (expo a) n.toInt)) := by
  subst ha hn
  exact (requireCanonical_of _ ca).trans (if_pos fa)

theorem execRound_of_sentinel {s : State} {a : Word} (ha : s.latched.opa = a) (ca : canonical a = true)
    (fa : isFiniteWord a = false) : exec .round s = .next (afterError s 0x02#8) := by
  subst ha
  exact (requireCanonical_of _ ca).trans (if_neg (Bool.eq_false_iff.mp fa))

/-- Settles O29: ROUND of a finite word completes with the machine's rounding, of a sentinel with TYPE_ERROR. -/
theorem roundGivesTheNearestMultiple : Obligations.RoundGivesTheNearestMultiple := by
  intro s a n ha hn ca
  refine ⟨fun fa => ?_, execRound_of_sentinel ha ca⟩
  obtain ⟨r, hround, hcanon⟩ := isCanon_roundToScale a n.toInt
  exact ⟨r, _, hround, hcanon, execRound_of_finite ha hn ca fa⟩

/-- Settles O30: where nothing is rounded, Canon leaves the canonical word alone. -/
theorem roundKeepsShortFractions : Obligations.RoundKeepsShortFractions := by
  intro s a n ha hn ca fa h
  rw [execRound_of_finite ha hn ca fa, roundToScale_of_le h, canon_val ca fa]

end Sys2Proof.Machine

/-!
PROOFS. The comparator (45_comparator.md): the machine's order is the order of R190 and R191, on two finite words that
of their values, from which the four commands of unit 5 and the properties of R196 follow.
-/
namespace Sys2Proof.Machine

open Sys2Proof

/-! ## The sign of a difference (00_scope.md R15) -/

/-- The machine's sign is the library's. -/
theorem sign_eq_intSign (n : ℤ) : sign n = n.sign := by
  unfold sign
  split_ifs with neg hzero
  · exact (Int.sign_eq_neg_one_of_neg neg).symm
  · rw [hzero, Int.sign_zero]
  · exact (Int.sign_eq_one_of_pos (by omega)).symm

/-- The sign of a difference is antisymmetric. -/
theorem sign_sub_comm (m n : ℤ) : sign (m - n) = -sign (n - m) := by
  rw [sign_eq_intSign, sign_eq_intSign, ← Int.sign_neg, neg_sub]

theorem sign_trichotomy (n : ℤ) : sign n = -1 ∨ sign n = 0 ∨ sign n = 1 := by
  rw [sign_eq_intSign]
  have h := Int.sign_trichotomy n
  tauto

theorem sign_sub_eq_zero_iff (m n : ℤ) : sign (m - n) = 0 ↔ m = n := by
  rw [sign_eq_intSign, Int.sign_eq_zero_iff_zero, sub_eq_zero]

/-- The sign of a difference in the form of R190's raw comparison. -/
theorem sign_sub_eq_ite (m n : ℤ) : sign (m - n) = if m < n then -1 else if m = n then 0 else 1 := by
  simp only [sign, sub_neg, sub_eq_zero]

/-- A positive factor does not change the sign. -/
theorem ratSign_intCast_mul (n : ℤ) {p : ℚ} (hp : 0 < p) : ratSign ((n : ℚ) * p) = sign n := by
  have hneg : (n : ℚ) * p < 0 ↔ n < 0 := by rw [mul_neg_iff, Int.cast_lt_zero]; simp [hp, hp.not_gt]
  have hzero : (n : ℚ) * p = 0 ↔ n = 0 := by rw [mul_eq_zero, or_iff_left hp.ne', Int.cast_eq_zero]
  simp only [ratSign, sign, hneg, hzero]

theorem ratSign_eq_zero_iff (x : ℚ) : ratSign x = 0 ↔ x = 0 := by
  unfold ratSign
  split_ifs with neg hzero
  · simp [neg.ne]
  · simp [hzero]
  · simp [hzero]

/-! ## compare (R190, R191, R192) -/

/-- Scaled to the larger exponent, the mantissas are in the order of the values. -/
theorem cmpFinite_eq_ratSign (a b : Word) : cmpFinite a b = ratSign (ratVal a - ratVal b) := by
  have hea : (max (expo a) (expo b) - expo a).toNat = (expo b - expo a).toNat := by omega
  have heb : (max (expo a) (expo b) - expo b).toNat = (expo a - expo b).toNat := by omega
  rw [ratVal_eq_scaled (le_max_left (expo a) (expo b)), ratVal_eq_scaled (le_max_right (expo a) (expo b)), hea, heb,
    ← sub_mul, ← Int.cast_sub, ratSign_intCast_mul _ (by positivity), cmpFinite]

theorem compareWords_of_finite {a b : Word} (fa : isFiniteWord a = true) (fb : isFiniteWord b = true) :
    compareWords a b = cmpFinite a b :=
  if_pos (by rw [fa, fb, Bool.and_self])

/-- With a sentinel the machine's order is the table's. -/
theorem compareWords_of_not_finite {a b : Word} (h : ¬(isFiniteWord a = true ∧ isFiniteWord b = true)) :
    compareWords a b = cmpNonfinite a b :=
  if_neg (by rwa [Bool.and_eq_true])

/-- Without NaN the table is the raw comparison of the words. -/
theorem cmpNonfinite_of_ne_nan {a b : Word} (ha : a ≠ nan) (hb : b ≠ nan) :
    cmpNonfinite a b = sign (a.toInt - b.toInt) := by
  simp [cmpNonfinite, ha, hb, signed64]

theorem isOrder_compareWords (a b : Word) : IsOrder a b (compareWords a b) := by
  by_cases h : isFiniteWord a = true ∧ isFiniteWord b = true
  · obtain ⟨fa, fb⟩ := h
    rw [compareWords_of_finite fa fb, cmpFinite_eq_ratSign]
    simp [IsOrder, ne_nan_of_finite fa, ne_nan_of_finite fb, fa, fb]
  · have hsentinel : isFiniteWord a = false ∨ isFiniteWord b = false := by
      simpa only [not_and_or, Bool.not_eq_true] using h
    rw [compareWords_of_not_finite h]
    rw [IsOrder, if_pos hsentinel, ← sign_sub_eq_ite, cmpNonfinite]
    split_ifs
    · rfl
    · rfl
    · rfl
    · rfl

/-! ## The commands (R192 to R195) -/

/-- Settles O34: the machine's order is the order for all words, and CMP completes with it. -/
theorem cmpGivesTheOrder : Obligations.CmpGivesTheOrder :=
  fun _ a b ha hb ca cb =>
    ⟨_, isOrder_compareWords a b, binaryWord_completes (fun a b => word64 (compareWords a b)) ha hb ca cb⟩

/-- The word of a truth value. -/
theorem word64_ite (p : Prop) [Decidable p] : word64 (if p then 1 else 0) = if p then 1#64 else 0#64 :=
  apply_ite word64 p 1 0

/-- Settles O35: the three commands complete with a word chosen by the machine's order. -/
theorem minMaxAndEqFollowTheOrder : Obligations.MinMaxAndEqFollowTheOrder := by
  intro s a b ha hb ca cb
  refine ⟨_, isOrder_compareWords a b, ?_, ?_, ?_⟩
  · exact binaryWord_completes (fun a b => if compareWords a b ≤ 0 then a else b) ha hb ca cb
  · exact binaryWord_completes (fun a b => if 0 ≤ compareWords a b then a else b) ha hb ca cb
  · rw [← word64_ite]
    exact binaryWord_completes (fun a b => word64 (if compareWords a b = 0 then 1 else 0)) ha hb ca cb

/-! ## The order is total (R196) -/

/-- Exchanging the operands exchanges the scaled mantissas. -/
theorem cmpFinite_antisymm (a b : Word) : cmpFinite a b = -cmpFinite b a := sign_sub_comm _ _

theorem cmpNonfinite_antisymm (a b : Word) : cmpNonfinite a b = -cmpNonfinite b a := by
  by_cases ha : a = nan <;> by_cases hb : b = nan
  · simp [cmpNonfinite, ha, hb]
  · simp [cmpNonfinite, ha, hb]
  · simp [cmpNonfinite, ha, hb]
  · rw [cmpNonfinite_of_ne_nan ha hb, cmpNonfinite_of_ne_nan hb ha, sign_sub_comm]

theorem compareWords_antisymm (a b : Word) : compareWords a b = -compareWords b a := by
  by_cases h : isFiniteWord a = true ∧ isFiniteWord b = true
  · obtain ⟨fa, fb⟩ := h
    rw [compareWords_of_finite fa fb, compareWords_of_finite fb fa, cmpFinite_antisymm]
  · rw [compareWords_of_not_finite h, compareWords_of_not_finite (mt And.symm h), cmpNonfinite_antisymm]

theorem cmpNonfinite_trichotomy (a b : Word) :
    cmpNonfinite a b = -1 ∨ cmpNonfinite a b = 0 ∨ cmpNonfinite a b = 1 := by
  unfold cmpNonfinite
  split_ifs
  · exact .inr (.inl rfl)
  · exact .inr (.inr rfl)
  · exact .inl rfl
  · exact sign_trichotomy _

theorem compareWords_trichotomy (a b : Word) :
    compareWords a b = -1 ∨ compareWords a b = 0 ∨ compareWords a b = 1 := by
  unfold compareWords
  split
  · exact sign_trichotomy _
  · exact cmpNonfinite_trichotomy a b

/-- The raw comparison tells any two words apart, and the rows for NaN tell it from every other word. -/
theorem cmpNonfinite_eq_zero_iff (a b : Word) : cmpNonfinite a b = 0 ↔ a = b := by
  by_cases ha : a = nan <;> by_cases hb : b = nan
  · simp [cmpNonfinite, ha, hb]
  · simp [cmpNonfinite, ha, hb, Ne.symm hb]
  · simp [cmpNonfinite, ha, hb]
  · rw [cmpNonfinite_of_ne_nan ha hb, sign_sub_eq_zero_iff, BitVec.toInt_inj]

theorem cmpFinite_eq_zero_iff (a b : Word) : cmpFinite a b = 0 ↔ ratVal a = ratVal b := by
  rw [cmpFinite_eq_ratSign, ratSign_eq_zero_iff, sub_eq_zero]

/-- Finite canonical words of one value are one word, so 0 is given for equal words only. -/
theorem compareWords_eq_zero_iff {a b : Word} (ca : canonical a = true) (cb : canonical b = true) :
    compareWords a b = 0 ↔ a = b := by
  by_cases h : isFiniteWord a = true ∧ isFiniteWord b = true
  · obtain ⟨fa, fb⟩ := h
    rw [compareWords_of_finite fa fb, cmpFinite_eq_zero_iff, eq_iff_ratVal_eq ca cb fa fb]
  · rw [compareWords_of_not_finite h, cmpNonfinite_eq_zero_iff]

theorem compareWords_nan {b : Word} (hb : b ≠ nan) : compareWords nan b = 1 := by
  rw [compareWords_of_not_finite fun ⟨fn, _⟩ => ne_nan_of_finite fn rfl]
  simp [cmpNonfinite, hb]

/-- Settles O36: each clause holds of the finite order and of the table. -/
theorem compareIsTotal : Obligations.CompareIsTotal :=
  fun a b ca cb =>
    ⟨compareWords_antisymm a b, compareWords_trichotomy a b, compareWords_eq_zero_iff ca cb,
      fun ha hb => ha ▸ compareWords_nan hb⟩

end Sys2Proof.Machine

/-!
PROOFS. The text parser (46_text_parser.md): trimming (R222); each part of the parser against its symbol of the grammar
(R224), for what it takes is spelled by the symbol, and it takes a whole spelling when what follows cannot continue it;
from these the grammar of whole texts (R223 to R228), PARSE of a written region (R230, R231), and the texts of
47_text_formatter.md as spellings of their words (R232).
-/
namespace Sys2Proof.Machine

open Sys2Proof

/-! ## Trimming (46_text_parser.md R222) -/

theorem isSpaceByte_iff (b : Byte) :
    isSpaceByte b = true ↔ b ∈ [0x09#8, 0x0A#8, 0x0B#8, 0x0C#8, 0x0D#8, 0x20#8] :=
  List.contains_iff_mem

/-- Trimming drops from the front, then from the back, by the library's functions. -/
theorem trim_eq (t : List Byte) : trim t = (t.dropWhile isSpaceByte).rdropWhile isSpaceByte := rfl

theorem trim_append_spaces (t : List Byte) :
    t = t.takeWhile isSpaceByte ++ trim t ++ (t.dropWhile isSpaceByte).rtakeWhile isSpaceByte := by
  rw [trim_eq, List.append_assoc, List.rdropWhile_append_rtakeWhile, List.takeWhile_append_dropWhile]

theorem head_trim_not_space {t rest : List Byte} {b : Byte} (h : trim t = b :: rest) : ¬isSpaceByte b = true := by
  obtain ⟨rest', hrest'⟩ : trim t <+: t.dropWhile isSpaceByte := List.rdropWhile_prefix _ _
  rw [h, List.cons_append] at hrest'
  have hne : t.dropWhile isSpaceByte ≠ [] := hrest' ▸ List.cons_ne_nil _ _
  have hhead := List.head_dropWhile_not isSpaceByte hne
  simpa [← hrest'] using hhead

theorem last_trim_not_space {t front : List Byte} {b : Byte} (h : trim t = front ++ [b]) : ¬isSpaceByte b = true := by
  have hne : (t.dropWhile isSpaceByte).rdropWhile isSpaceByte ≠ [] := by simp [← trim_eq, h]
  have hlast := List.rdropWhile_last_not isSpaceByte _ hne
  simpa [← trim_eq, h] using hlast

/-- Settles O39: the two longest runs of white space are what is removed, so no end of the rest can be one. -/
theorem trimRemovesTheEnds : Obligations.TrimRemovesTheEnds := by
  intro t
  refine ⟨_, _, trim_append_spaces t, fun b hb => ?_, fun b rest h => ?_, fun b front h => ?_⟩ <;>
    rw [← isSpaceByte_iff]
  · rcases List.mem_append.mp hb with hb | hb
    · exact List.mem_takeWhile_imp hb
    · exact List.mem_rtakeWhile_imp hb
  · exact head_trim_not_space h
  · exact last_trim_not_space h

/-- A text with no white space is left as it is. -/
theorem trim_of_no_space {t : List Byte} (h : ∀ b ∈ t, ¬isSpaceByte b = true) : trim t = t := by
  have hfront : t.dropWhile isSpaceByte = t :=
    List.dropWhile_eq_self_iff.mpr fun hl => h _ (List.getElem_mem hl)
  rw [trim_eq, hfront]
  exact List.rdropWhile_eq_self_iff.mpr fun hne => h _ (List.getLast_mem hne)

/-! ## Runs of digits and their values (46_text_parser.md R224, R225) -/

/-- The text is empty or its first byte does not satisfy `p`. -/
def Avoids (p : Byte → Bool) (t : List Byte) : Prop := ∀ b rest, t = b :: rest → ¬p b = true

theorem avoids_nil (p : Byte → Bool) : Avoids p [] := fun _ _ h => absurd h (List.cons_ne_nil _ _).symm

theorem avoids_cons {p : Byte → Bool} {b : Byte} {t : List Byte} : Avoids p (b :: t) ↔ ¬p b = true :=
  ⟨fun h => h b t rfl, fun h _ _ e => (List.cons.inj e).1 ▸ h⟩

theorem avoids_append {p : Byte → Bool} {t rest : List Byte} (ht : ∀ b ∈ t, ¬p b = true) (hrest : Avoids p rest) :
    Avoids p (t ++ rest) := by
  cases t with
  | nil => exact hrest
  | cons b t => exact avoids_cons.mpr (ht b List.mem_cons_self)

theorem takeDigits_eq (t : List Byte) : takeDigits t = (t.takeWhile isDigitByte, t.dropWhile isDigitByte) := by
  induction t with
  | nil => rfl
  | cons b t ih => by_cases hb : isDigitByte b = true <;> simp [takeDigits, hb, ih]

theorem digitRun_takeDigits (t : List Byte) : DigitRun (takeDigits t).1 := by
  rw [takeDigits_eq]
  exact fun _ => List.mem_takeWhile_imp

theorem takeDigits_append_rest (t : List Byte) : t = (takeDigits t).1 ++ (takeDigits t).2 := by
  rw [takeDigits_eq, List.takeWhile_append_dropWhile]

theorem takeDigits_append {ds rest : List Byte} (hds : DigitRun ds) (hrest : Avoids isDigitByte rest) :
    takeDigits (ds ++ rest) = (ds, rest) := by
  rw [takeDigits_eq, List.takeWhile_append_of_pos hds, List.dropWhile_append_of_pos hds]
  cases rest with
  | nil => simp
  | cons b rest => simp [avoids_cons.mp hrest]

theorem DigitRun.append {ds ds' : List Byte} (h : DigitRun ds) (h' : DigitRun ds') : DigitRun (ds ++ ds') :=
  fun b hb => (List.mem_append.mp hb).elim (h b) (h' b)

theorem digitsValue_eq_decimalValue (ds : List Byte) : digitsValue 0 ds = decimalValue ds := by
  rw [digitsValue, decimalValue, Nat.ofDigits_eq_foldr, List.foldr_map, List.foldr_reverse]
  simp [add_comm]

theorem digitsValue_digitsValue (ds ds' : List Byte) :
    digitsValue (digitsValue 0 ds) ds' = decimalValue (ds ++ ds') := by
  rw [← digitsValue_eq_decimalValue, digitsValue, digitsValue, digitsValue, List.foldl_append]

/-! ## The sign (46_text_parser.md R224) -/

/-- A byte of `sign`. -/
def isSignByte (b : Byte) : Bool := b == 0x2B#8 || b == 0x2D#8

theorem not_sign_of_digit (b : Byte) : isDigitByte b = true → ¬isSignByte b = true := by
  revert b
  decide

theorem DigitRun.avoids_sign {ds : List Byte} (h : DigitRun ds) : Avoids isSignByte ds :=
  fun b _ e => not_sign_of_digit b (h b (e ▸ List.mem_cons_self))

theorem signText_takeSign (t : List Byte) : ∃ sg, SignText sg (takeSign t).1 ∧ t = sg ++ (takeSign t).2 := by
  cases t with
  | nil => exact ⟨[], .inl ⟨rfl, rfl⟩, rfl⟩
  | cons b rest =>
    by_cases minus : b = 0x2D#8
    · subst minus
      exact ⟨[0x2D#8], .inr (.inr ⟨rfl, rfl⟩), rfl⟩
    · by_cases plus : b = 0x2B#8
      · subst plus
        exact ⟨[0x2B#8], .inr (.inl ⟨rfl, rfl⟩), rfl⟩
      · rw [takeSign, if_neg minus, if_neg plus]
        exact ⟨[], .inl ⟨rfl, rfl⟩, rfl⟩

theorem takeSign_append {sg rest : List Byte} {neg : Bool} (hsg : SignText sg neg) (hrest : Avoids isSignByte rest) :
    takeSign (sg ++ rest) = (neg, rest) := by
  rcases hsg with ⟨rfl, rfl⟩ | ⟨rfl, rfl⟩ | ⟨rfl, rfl⟩
  · cases rest with
    | nil => rfl
    | cons b rest =>
      have hb := avoids_cons.mp hrest
      simp only [isSignByte, Bool.or_eq_true, beq_iff_eq, not_or] at hb
      rw [List.nil_append, takeSign, if_neg hb.2, if_neg hb.1]
  · rfl
  · rfl

/-! ## The fraction and the significand (46_text_parser.md R224) -/

/-- The optional point of a `significand` with the digits `fr` after it. -/
def FractionText (t fr : List Byte) : Prop := DigitRun fr ∧ ((t = [] ∧ fr = []) ∨ t = 0x2E#8 :: fr)

/-- `significand` as the parser reads it: the digits before the point, then the fraction, a digit in one of them. -/
theorem significandText_iff (t ip fr : List Byte) : SignificandText t ip fr ↔
    DigitRun ip ∧ ∃ tail, FractionText tail fr ∧ t = ip ++ tail ∧ ¬(ip = [] ∧ fr = []) := by
  constructor
  · rintro ⟨hip, hfr, ⟨hne, rfl, rfl⟩ | ⟨hne, rfl⟩ | ⟨rfl, hne, rfl⟩⟩
    · exact ⟨hip, [], ⟨hfr, .inl ⟨rfl, rfl⟩⟩, (List.append_nil _).symm, fun h => hne h.1⟩
    · exact ⟨hip, _, ⟨hfr, .inr rfl⟩, by simp, fun h => hne h.1⟩
    · exact ⟨hip, _, ⟨hfr, .inr rfl⟩, rfl, fun h => hne h.2⟩
  · rintro ⟨hip, tail, ⟨hfr, ⟨rfl, rfl⟩ | rfl⟩, rfl, hne⟩
    · exact ⟨hip, hfr, .inl ⟨fun h => hne ⟨h, rfl⟩, rfl, List.append_nil _⟩⟩
    · by_cases h0 : ip = []
      · subst h0
        exact ⟨hip, hfr, .inr (.inr ⟨rfl, fun h => hne ⟨rfl, h⟩, rfl⟩)⟩
      · exact ⟨hip, hfr, .inr (.inl ⟨h0, by simp⟩)⟩

theorem fractionText_takeFraction (t : List Byte) :
    ∃ tail, FractionText tail (takeFraction t).1 ∧ t = tail ++ (takeFraction t).2 := by
  cases t with
  | nil => exact ⟨[], ⟨List.forall_mem_nil _, .inl ⟨rfl, rfl⟩⟩, rfl⟩
  | cons b rest =>
    by_cases point : b = 0x2E#8
    · rw [takeFraction, if_pos point, point]
      exact ⟨_, ⟨digitRun_takeDigits rest, .inr rfl⟩, congrArg _ (takeDigits_append_rest rest)⟩
    · rw [takeFraction, if_neg point]
      exact ⟨[], ⟨List.forall_mem_nil _, .inl ⟨rfl, rfl⟩⟩, rfl⟩

/-- A byte that can stand in a significand. -/
def isSignificandByte (b : Byte) : Bool := isDigitByte b || b == 0x2E#8

theorem not_sign_of_significand (b : Byte) : isSignificandByte b = true → ¬isSignByte b = true := by
  revert b
  decide

theorem DigitRun.bytes {ds : List Byte} (h : DigitRun ds) : ∀ b ∈ ds, isSignificandByte b = true :=
  fun b hb => by simp [isSignificandByte, h b hb]

theorem Avoids.digit {t : List Byte} (h : Avoids isSignificandByte t) : Avoids isDigitByte t :=
  fun b rest e hb => h b rest e (by simp [isSignificandByte, hb])

theorem takeFraction_append {tail fr rest : List Byte} (htail : FractionText tail fr)
    (hrest : Avoids isSignificandByte rest) : takeFraction (tail ++ rest) = (fr, rest) := by
  obtain ⟨hfr, ⟨rfl, rfl⟩ | rfl⟩ := htail
  · cases rest with
    | nil => rfl
    | cons b rest =>
      have hb := avoids_cons.mp hrest
      simp only [isSignificandByte, Bool.or_eq_true, beq_iff_eq, not_or] at hb
      rw [List.nil_append, takeFraction, if_neg hb.2]
  · rw [List.cons_append, takeFraction, if_pos rfl, takeDigits_append hfr hrest.digit]

/-- No digit follows the digits before a fraction. -/
theorem FractionText.avoids_digit {tail fr rest : List Byte} (htail : FractionText tail fr)
    (hrest : Avoids isSignificandByte rest) : Avoids isDigitByte (tail ++ rest) := by
  obtain ⟨-, ⟨rfl, rfl⟩ | rfl⟩ := htail
  · exact hrest.digit
  · exact avoids_cons.mpr (by decide)

theorem FractionText.bytes {t fr : List Byte} (h : FractionText t fr) : ∀ b ∈ t, isSignificandByte b = true := by
  obtain ⟨hfr, ⟨rfl, -⟩ | rfl⟩ := h
  · exact List.forall_mem_nil _
  · exact List.forall_mem_cons.mpr ⟨rfl, hfr.bytes⟩

theorem SignificandText.bytes {t ip fr : List Byte} (h : SignificandText t ip fr) :
    ∀ b ∈ t, isSignificandByte b = true := by
  obtain ⟨hip, tail, htail, rfl, -⟩ := (significandText_iff t ip fr).mp h
  exact fun b hb => (List.mem_append.mp hb).elim (hip.bytes b) (htail.bytes b)

/-! ## The exponent (46_text_parser.md R224, R226) -/

/-- The marker of an `exponent`. -/
def IsExponentMark (b : Byte) : Prop := b = 0x65#8 ∨ b = 0x45#8

/-- The limits of R226. -/
def ExponentInRange (frac : ℕ) (x : ℤ) : Prop :=
  -(2 ^ 31 - 1) ≤ x ∧ x ≤ 2 ^ 31 - 1 ∧ -(2 ^ 31) ≤ (frac : ℤ) - x ∧ (frac : ℤ) - x ≤ 2 ^ 31 - 1

/-- The integer that the digits of an exponent spell (R225). -/
def exponentValue (neg : Bool) (ds : List Byte) : ℤ := if neg then -(decimalValue ds : ℤ) else (decimalValue ds : ℤ)

/-- A sign and digits to the end of the text are what the parser takes apart. -/
theorem signedDigits_iff (t ds : List Byte) (neg : Bool) :
    (∃ sg, SignText sg neg ∧ DigitRun ds ∧ t = sg ++ ds) ↔
      (takeSign t).1 = neg ∧ takeDigits (takeSign t).2 = (ds, []) := by
  constructor
  · rintro ⟨sg, hsg, hds, rfl⟩
    have hdigits := takeDigits_append hds (avoids_nil _)
    rw [List.append_nil] at hdigits
    rw [takeSign_append hsg hds.avoids_sign]
    exact ⟨rfl, hdigits⟩
  · rintro ⟨rfl, hdigits⟩
    obtain ⟨sg, hsg, ht⟩ := signText_takeSign t
    have hrun := digitRun_takeDigits (takeSign t).2
    have hall := takeDigits_append_rest (takeSign t).2
    rw [hdigits] at hrun hall
    exact ⟨sg, hsg, hrun, by rwa [hall, List.append_nil] at ht⟩

/-- `t` is what follows the marker of an exponent of value `x`. -/
def ExponentDigits (t : List Byte) (frac : ℕ) (x : ℤ) : Prop :=
  ∃ neg ds, (∃ sg, SignText sg neg ∧ DigitRun ds ∧ t = sg ++ ds) ∧ ds ≠ [] ∧ x = exponentValue neg ds ∧
    ExponentInRange frac x

theorem exponentText_nil (frac : ℕ) (x : ℤ) : ExponentText [] frac x ↔ x = 0 := by
  simp [ExponentText]

theorem exponentText_cons (b : Byte) (t : List Byte) (frac : ℕ) (x : ℤ) :
    ExponentText (b :: t) frac x ↔ IsExponentMark b ∧ ExponentDigits t frac x := by
  constructor
  · rintro (⟨h, -⟩ | ⟨mark, sg, ds, neg, hmark, hsg, hne, hds, ht, hx, hrange⟩)
    · cases h
    · obtain ⟨rfl, rfl⟩ : b = mark ∧ t = sg ++ ds := List.cons.inj ht
      exact ⟨hmark, neg, ds, ⟨sg, hsg, hds, rfl⟩, hne, hx, hrange⟩
  · rintro ⟨hmark, neg, ds, ⟨sg, hsg, hds, rfl⟩, hne, hx, hrange⟩
    exact .inr ⟨b, sg, ds, neg, hmark, hsg, hne, hds, rfl, hx, hrange⟩

theorem takeExponent_of_mark {b : Byte} (hb : IsExponentMark b) (frac : ℕ) (t : List Byte) (x : ℤ) :
    takeExponent frac (b :: t) = some x ↔ ExponentDigits t frac x := by
  rw [takeExponent, if_pos (show b = 0x65#8 ∨ b = 0x45#8 from hb)]
  simp only [digitsValue_eq_decimalValue, ExponentDigits, signedDigits_iff]
  obtain ⟨neg, rest⟩ := takeSign t
  dsimp only
  obtain ⟨ds, after⟩ := takeDigits rest
  constructor
  · intro h
    obtain ⟨hform, h⟩ := Option.ite_none_left_eq_some.mp h
    obtain ⟨hrange, h⟩ := Option.ite_none_right_eq_some.mp h
    obtain ⟨hne, hafter⟩ := not_or.mp hform
    exact ⟨neg, ds, ⟨rfl, Prod.ext rfl (not_not.mp hafter)⟩, hne, (Option.some.inj h).symm, Option.some.inj h ▸ hrange⟩
  · rintro ⟨_, _, ⟨rfl, hdigits⟩, hne, rfl, hrange⟩
    obtain ⟨rfl, rfl⟩ := Prod.mk.inj hdigits
    exact (if_neg (not_or.mpr ⟨hne, not_not.mpr rfl⟩)).trans (if_pos hrange)

theorem takeExponent_of_not_mark {b : Byte} (hb : ¬IsExponentMark b) (frac : ℕ) (t : List Byte) :
    takeExponent frac (b :: t) = none :=
  if_neg hb

/-- What the parser takes as an exponent to the end of the text is the grammar's. -/
theorem takeExponent_iff (frac : ℕ) (t : List Byte) (x : ℤ) : takeExponent frac t = some x ↔ ExponentText t frac x := by
  cases t with
  | nil => simp [takeExponent, exponentText_nil, eq_comm]
  | cons b t =>
    by_cases hb : IsExponentMark b
    · simp [takeExponent_of_mark hb, exponentText_cons, hb]
    · simp [takeExponent_of_not_mark hb, exponentText_cons, hb]

theorem ExponentText.avoids {p : Byte → Bool} {t : List Byte} {frac : ℕ} {x : ℤ} (h : ExponentText t frac x)
    (hp : ∀ b, IsExponentMark b → ¬p b = true) : Avoids p t := by
  cases t with
  | nil => exact avoids_nil p
  | cons b t => exact avoids_cons.mpr (hp b ((exponentText_cons b t frac x).mp h).1)

/-! ## The number and its value (46_text_parser.md R224, R225) -/

/-- `t` is a sign, a significand with the digits `ip` and `fr`, and an exponent of value `x`. -/
def SpellsNumber (t : List Byte) (neg : Bool) (ip fr : List Byte) (x : ℤ) : Prop :=
  ∃ sg sig ex, t = sg ++ sig ++ ex ∧ SignText sg neg ∧ SignificandText sig ip fr ∧ ExponentText ex fr.length x

/-- The exact value that the parser gives to those parts. -/
def spelledValue (neg : Bool) (ip fr : List Byte) (x : ℤ) : Exact :=
  Exact.ofParts (if neg then -(decimalValue (ip ++ fr) : ℤ) else (decimalValue (ip ++ fr) : ℤ)) ((fr.length : ℤ) - x)

theorem spelledValue_toRat (neg : Bool) (ip fr : List Byte) (x : ℤ) : (spelledValue neg ip fr x).toRat =
    (if neg then -1 else 1) * (decimalValue (ip ++ fr) : ℚ) * (10 : ℚ) ^ (x - (fr.length : ℤ)) := by
  rw [spelledValue, Exact.ofParts_toRat, neg_sub]
  cases neg <;> simp

theorem numberText_iff (t : List Byte) (v : ℚ) :
    NumberText t v ↔ ∃ neg ip fr x, SpellsNumber t neg ip fr x ∧ v = (spelledValue neg ip fr x).toRat := by
  simp only [spelledValue_toRat]
  constructor
  · rintro ⟨sg, sig, ip, fr, ex, neg, x, ht, hsg, hsig, hex, hv⟩
    exact ⟨neg, ip, fr, x, ⟨sg, sig, ex, ht, hsg, hsig, hex⟩, hv⟩
  · rintro ⟨neg, ip, fr, x, ⟨sg, sig, ex, ht, hsg, hsig, hex⟩, hv⟩
    exact ⟨sg, sig, ip, fr, ex, neg, x, ht, hsg, hsig, hex, hv⟩

/-- The parser takes exactly the spellings apart, into the parts that spell them. -/
theorem spellsNumber_iff (t ip fr : List Byte) (neg : Bool) (x : ℤ) : SpellsNumber t neg ip fr x ↔
    ∃ r r' ex, takeSign t = (neg, r) ∧ takeDigits r = (ip, r') ∧ takeFraction r' = (fr, ex) ∧ ¬(ip = [] ∧ fr = []) ∧
      takeExponent fr.length ex = some x := by
  constructor
  · rintro ⟨sg, sig, ex, rfl, hsg, hsig, hex⟩
    have hbytes := hsig.bytes
    obtain ⟨hip, tail, htail, rfl, hne⟩ := (significandText_iff sig ip fr).mp hsig
    have hend : Avoids isSignificandByte ex := hex.avoids (by rintro b (rfl | rfl) <;> decide)
    have hend' : Avoids isSignByte ex := hex.avoids (by rintro b (rfl | rfl) <;> decide)
    have hsign := avoids_append (fun b hb => not_sign_of_significand b (hbytes b hb)) hend'
    rw [List.append_assoc] at hsign
    rw [List.append_assoc, List.append_assoc]
    exact ⟨_, _, ex, takeSign_append hsg hsign, takeDigits_append hip (htail.avoids_digit hend),
      takeFraction_append htail hend, hne, (takeExponent_iff fr.length ex x).mpr hex⟩
  · rintro ⟨r, r', ex, hr, hr', hex, hne, hx⟩
    obtain ⟨sg, hsg, ht⟩ := signText_takeSign t
    obtain ⟨tail, htail, ht'⟩ := fractionText_takeFraction r'
    have hip := digitRun_takeDigits r
    have ht'' := takeDigits_append_rest r
    rw [hr] at hsg ht
    rw [hr'] at hip ht''
    rw [hex] at htail ht'
    exact ⟨sg, ip ++ tail, ex, by rw [ht, ht'', ht']; simp, hsg,
      (significandText_iff _ ip fr).mpr ⟨hip, tail, htail, rfl, hne⟩, (takeExponent_iff fr.length ex x).mp hx⟩

theorem numberValue_iff (t : List Byte) (y : Exact) :
    numberValue t = some y ↔ ∃ neg ip fr x, SpellsNumber t neg ip fr x ∧ y = spelledValue neg ip fr x := by
  simp only [spellsNumber_iff, numberValue, digitsValue_digitsValue]
  constructor
  · intro h
    obtain ⟨hne, h⟩ := Option.ite_none_left_eq_some.mp h
    split at h
    · cases h
    · next x hx => exact ⟨_, _, _, x, ⟨_, _, _, rfl, rfl, rfl, hne, hx⟩, (Option.some.inj h).symm⟩
  · rintro ⟨neg, ip, fr, x, ⟨r, r', ex, hr, hr', hex, hne, hx⟩, rfl⟩
    simp only [hr, hr', hex, if_neg hne, hx, spelledValue]

/-- A number's value is that of the spelling the parser finds. -/
theorem numberText_iff_numberValue (t : List Byte) (v : ℚ) :
    NumberText t v ↔ ∃ y, numberValue t = some y ∧ v = y.toRat := by
  simp only [numberText_iff, numberValue_iff]
  constructor
  · rintro ⟨neg, ip, fr, x, h, rfl⟩
    exact ⟨_, ⟨neg, ip, fr, x, h, rfl⟩, rfl⟩
  · rintro ⟨_, ⟨neg, ip, fr, x, h, rfl⟩, rfl⟩
    exact ⟨neg, ip, fr, x, h, rfl⟩

/-! ## Whole texts (46_text_parser.md R223, R228) -/

theorem specialLiteral_iff (t : List Byte) (w : Word) : specialLiteral t = some w ↔ LiteralText t w := by
  constructor
  · intro h
    unfold specialLiteral at h
    split_ifs at h with hnan hpinf hninf
    · exact .inl ⟨hnan, (Option.some.inj h).symm⟩
    · exact .inr (.inl ⟨hpinf, (Option.some.inj h).symm⟩)
    · exact .inr (.inr ⟨hninf, (Option.some.inj h).symm⟩)
  · rintro (⟨rfl, rfl⟩ | ⟨rfl, rfl⟩ | ⟨rfl, rfl⟩) <;> rfl

/-- No literal is a number. -/
theorem LiteralText.numberValue_eq_none {t : List Byte} {w : Word} (h : LiteralText t w) : numberValue t = none := by
  rcases h with ⟨rfl, -⟩ | ⟨rfl, -⟩ | ⟨rfl, -⟩ <;> decide

theorem numberValue_den_pos {t : List Byte} {y : Exact} (h : numberValue t = some y) : 0 < y.den := by
  obtain ⟨neg, ip, fr, x, -, rfl⟩ := (numberValue_iff t y).mp h
  exact Nat.one_pos

theorem parseText_iff (t : List Byte) (w : Word) :
    parseText t = some w ↔ LiteralText (trim t) w ∨ ∃ y, numberValue (trim t) = some y ∧ canon y = w := by
  rw [← specialLiteral_iff, parseText]
  cases hlit : specialLiteral (trim t) with
  | some w' =>
    have hnone := ((specialLiteral_iff _ w').mp hlit).numberValue_eq_none
    simp [hnone]
  | none => cases numberValue (trim t) <;> simp

/-- Settles O38: the parser finds a number's spelling exactly where there is one, and its value determines Canon. -/
theorem parseFollowsTheGrammar : Obligations.ParseFollowsTheGrammar := by
  intro t w
  simp only [parseText_iff, numberText_iff_numberValue]
  refine or_congr_right ⟨?_, ?_⟩
  · rintro ⟨y, hy, rfl⟩
    exact ⟨_, ⟨y, hy, rfl⟩, isCanon_canon (numberValue_den_pos hy)⟩
  · rintro ⟨_, ⟨y, hy, rfl⟩, hcanon⟩
    exact ⟨y, hy, isCanon_unique (isCanon_canon (numberValue_den_pos hy)) hcanon⟩

/-! ## PARSE of a written region (46_text_parser.md R230, R231) -/

/-- Settles O40: the region is read as the text, with no draw, and the text decides the completion. -/
theorem parseCompletes : Obligations.ParseCompletes := by
  rintro s _ _ t rfl rfl hin hraced hlen hbytes
  have hread := readRegion_ok s.mem s.draws t s.latched.addr.toNat (hlen ▸ hbytes)
  rw [← hraced, hlen] at hread
  have hparse : exec .parse s = _ := execParse_of_read ((regionInside_iff s _ _).mpr hin) hread
  exact ⟨fun w hw => by rw [hparse, hw], fun hnone => by rw [hparse, hnone]⟩

/-! ## The formatter's digits (47_text_formatter.md R251) -/

theorem decimalValue_append (ds ds' : List Byte) :
    decimalValue (ds ++ ds') = decimalValue ds * 10 ^ ds'.length + decimalValue ds' := by
  simp only [decimalValue, List.reverse_append, List.map_append, Nat.ofDigits_append, List.length_map,
    List.length_reverse]
  ring

theorem decimalValue_zeros (k : ℕ) : decimalValue (List.replicate k 0x30#8) = 0 := by
  rw [decimalValue, List.reverse_replicate, List.map_replicate]
  exact Nat.ofDigits_replicate_zero

theorem digitRun_zeros (k : ℕ) : DigitRun (List.replicate k 0x30#8) :=
  fun _ hb => List.eq_of_mem_replicate hb ▸ rfl

theorem digitByte_spec {n : ℕ} (h : n < 10) : isDigitByte (digitByte n) = true ∧ digitValue (digitByte n) = n := by
  revert n
  decide

theorem digitRun_digitByte {n : ℕ} (h : n < 10) : DigitRun [digitByte n] :=
  List.forall_mem_singleton.mpr (digitByte_spec h).1

theorem decimalValue_digitByte {n : ℕ} (h : n < 10) : decimalValue [digitByte n] = n := by
  simp [decimalValue, (digitByte_spec h).2]

/-- The digits of `n`, given steps enough, are digits and spell `n`. -/
theorem digitBytesAux_spec (fuel n : ℕ) (h : n ≤ fuel) :
    DigitRun (digitBytesAux fuel n) ∧ decimalValue (digitBytesAux fuel n) = n := by
  induction fuel generalizing n with
  | zero =>
    have hn : n < 10 := by omega
    exact ⟨digitRun_digitByte hn, decimalValue_digitByte hn⟩
  | succ fuel ih =>
    rw [digitBytesAux]
    split
    · next hn => exact ⟨digitRun_digitByte hn, decimalValue_digitByte hn⟩
    · obtain ⟨hrun, hvalue⟩ := ih (n / 10) (by omega)
      have hlast : n % 10 < 10 := Nat.mod_lt n (by decide)
      refine ⟨hrun.append (digitRun_digitByte hlast), ?_⟩
      rw [decimalValue_append, hvalue, decimalValue_digitByte hlast, List.length_singleton, pow_one, Nat.div_add_mod']

theorem digitBytesAux_ne_nil (fuel n : ℕ) : digitBytesAux fuel n ≠ [] := by
  cases fuel with
  | zero => exact List.cons_ne_nil _ _
  | succ fuel =>
    rw [digitBytesAux]
    split
    · exact List.cons_ne_nil _ _
    · exact List.append_ne_nil_of_right_ne_nil _ (List.cons_ne_nil _ _)

theorem digitRun_digitBytes (n : ℕ) : DigitRun (digitBytes n) := (digitBytesAux_spec n n le_rfl).1

theorem decimalValue_digitBytes (n : ℕ) : decimalValue (digitBytes n) = n := (digitBytesAux_spec n n le_rfl).2

theorem digitBytes_ne_nil (n : ℕ) : digitBytes n ≠ [] := digitBytesAux_ne_nil n n

/-! ## Every text spells its word (46_text_parser.md R232) -/

/-- One reading for the forms of R251 to R254: a positive exponent counts the fraction digits, a negative one the
zeros after the magnitude's digits. -/
theorem magnitudeText_spells (n : ℕ) (e : ℤ) : ∃ ip fr, SignificandText (magnitudeText n e) ip fr ∧
    decimalValue (ip ++ fr) = n * 10 ^ (-e).toNat ∧ fr.length = e.toNat := by
  have hrun := digitRun_digitBytes n
  have hvalue := decimalValue_digitBytes n
  have hne := digitBytes_ne_nil n
  simp only [magnitudeText]
  generalize digitBytes n = ds at hrun hvalue hne ⊢
  split_ifs with hnonpos hinside
  · refine ⟨_, [], ⟨hrun.append (digitRun_zeros _), List.forall_mem_nil _, .inl ⟨?_, rfl, rfl⟩⟩, ?_, ?_⟩
    · exact List.append_ne_nil_of_left_ne_nil hne _
    · rw [List.append_nil, decimalValue_append, hvalue, decimalValue_zeros, List.length_replicate, add_zero]
    · rw [Int.toNat_of_nonpos hnonpos, List.length_nil]
  · have hscale : (-e).toNat = 0 := by omega
    refine ⟨ds.take (ds.length - e.toNat), ds.drop (ds.length - e.toNat),
      ⟨fun b hb => hrun b (List.mem_of_mem_take hb), fun b hb => hrun b (List.mem_of_mem_drop hb),
        .inr (.inl ⟨?_, rfl⟩)⟩, ?_, ?_⟩
    · rw [Ne, List.take_eq_nil_iff]
      exact not_or.mpr ⟨by omega, hne⟩
    · rw [List.take_append_drop, hvalue, hscale, pow_zero, mul_one]
    · rw [List.length_drop]
      omega
  · have hscale : (-e).toNat = 0 := by omega
    refine ⟨[0x30#8], List.replicate (e.toNat - ds.length) 0x30#8 ++ ds,
      ⟨digitRun_zeros 1, (digitRun_zeros _).append hrun, .inr (.inl ⟨List.cons_ne_nil _ _, ?_⟩)⟩, ?_, ?_⟩
    · simp
    · rw [← List.append_assoc, decimalValue_append, hvalue, hscale, pow_zero, mul_one]
      exact Nat.add_eq_right.mpr (mul_eq_zero_of_left (decimalValue_zeros (e.toNat - ds.length + 1)) _)
    · rw [List.length_append, List.length_replicate]
      omega

theorem text_of_finite {w : Word} (hf : isFiniteWord w = true) :
    text w = (if mant w < 0 then [0x2D#8] else []) ++ magnitudeText (mant w).natAbs (expo w) := by
  have hne : ∀ {s : Word}, isFiniteWord s = false → w ≠ s := by
    rintro s hs rfl
    exact absurd hf (by simp [hs])
  rw [text, if_neg (hne (by decide)), if_neg (hne (by decide)), if_neg (hne (by decide))]

theorem mant_eq_sign_mul (w : Word) : (mant w : ℚ) = (if mant w < 0 then -1 else 1) * ((mant w).natAbs : ℚ) := by
  rw [Nat.cast_natAbs, Int.cast_abs]
  split_ifs with hneg
  · rw [abs_of_neg (Int.cast_lt_zero.mpr hneg), neg_one_mul, neg_neg]
  · rw [abs_of_nonneg (Int.cast_nonneg (not_lt.mp hneg)), one_mul]

theorem numberText_text {w : Word} (hf : isFiniteWord w = true) : NumberText (text w) (ratVal w) := by
  obtain ⟨ip, fr, hsig, hvalue, hfrac⟩ := magnitudeText_spells (mant w).natAbs (expo w)
  refine ⟨if mant w < 0 then [0x2D#8] else [], _, ip, fr, [], decide (mant w < 0), 0, ?_, ?_, hsig, .inl ⟨rfl, rfl⟩, ?_⟩
  · rw [List.append_nil, text_of_finite hf]
  · by_cases hneg : mant w < 0 <;> simp [hneg, SignText]
  · have hscale : (10 : ℚ) ^ (-expo w) = 10 ^ (-expo w).toNat * (10 : ℚ) ^ (0 - ((expo w).toNat : ℤ)) := by
      rw [← zpow_natCast, ← zpow_add₀ (by norm_num)]
      congr 1
      omega
    rw [ratVal, mant_eq_sign_mul, hscale, hvalue, hfrac]
    push_cast
    simp only [decide_eq_true_eq]
    ring

theorem not_space_of_significand (b : Byte) : isSignificandByte b = true → ¬isSpaceByte b = true := by
  revert b
  decide

theorem magnitudeText_no_space (n : ℕ) (e : ℤ) : ∀ b ∈ magnitudeText n e, ¬isSpaceByte b = true := by
  obtain ⟨ip, fr, hsig, -⟩ := magnitudeText_spells n e
  exact fun b hb => not_space_of_significand b (hsig.bytes b hb)

theorem text_no_space (w : Word) : ∀ b ∈ text w, ¬isSpaceByte b = true := by
  unfold text
  split_ifs
  · decide
  · decide
  · decide
  · exact List.forall_mem_cons.mpr ⟨by decide, magnitudeText_no_space _ _⟩
  · exact magnitudeText_no_space _ _

theorem literalText_text {w : Word} (h : w = nan ∨ w = pinf ∨ w = ninf) : LiteralText (text w) w := by
  rcases h with rfl | rfl | rfl
  · exact .inl ⟨rfl, rfl⟩
  · exact .inr (.inl ⟨rfl, rfl⟩)
  · exact .inr (.inr ⟨rfl, rfl⟩)

theorem sentinel_of_not_finite {w : Word} (hc : canonical w = true) (hf : ¬isFiniteWord w = true) :
    w = nan ∨ w = pinf ∨ w = ninf := by
  rw [isFiniteWord_iff, not_not] at hf
  refine ((canonical_iff w).mp hc).resolve_right ?_
  omega

/-- A canonical word's text is its sentinel's literal, or a number whose value is the word's. -/
theorem parseText_text {w : Word} (hc : canonical w = true) : parseText (text w) = some w := by
  rw [parseFollowsTheGrammar, trim_of_no_space (text_no_space w)]
  by_cases hf : isFiniteWord w = true
  · exact .inr ⟨ratVal w, numberText_text hf, isCanon_ratVal hc hf⟩
  · exact .inl (literalText_text (sentinel_of_not_finite hc hf))

/-- A FORMAT that leaves RLEN a value had a region long enough, and has written the text there. -/
theorem execFormat_of_rlen {s t : State} {n : Half} (h : execFormat s = .next t) (hn : t.rlen = some n) :
    s.latched.addr.toNat + s.latched.len.toNat ≤ s.bufSize.val ∧ (text s.latched.opa).length ≤ s.latched.len.toNat ∧
      n = BitVec.ofNat 32 (text s.latched.opa).length ∧ t.bufSize = s.bufSize ∧
      t.mem = memDrawList (memWriteText s.mem s.latched.addr.toNat (text s.latched.opa)) s.raced s.draws := by
  obtain ⟨-, h⟩ := requireCanonical_next h
  split at h
  · next hin =>
    split at h
    · next hfits =>
      cases h
      exact ⟨regionInside_le hin, hfits, (Option.some.inj hn).symm, rfl, rfl⟩
    · cases h
      cases hn
  · cases h
    cases hn

/-- Settles O48: the region that PARSE reads is the text FORMAT wrote, which spells the word. -/
theorem parseOfFormatGivesTheWord : Obligations.ParseOfFormatGivesTheWord := by
  rintro s t u _ _ _ n rfl rfl rfl hc hraced hformat hn hbytes hsize huraced haddr hlen
  obtain ⟨hin, hfits, hn', hsize', hmem⟩ := execFormat_of_rlen hformat hn
  have hlength : (text s.latched.opa).length = n.toNat := by
    rw [hn', BitVec.toNat_ofNat, Nat.mod_eq_of_lt]
    omega
  refine (parseCompletes u _ n _ haddr hlen ?_ huraced hlength fun i hi => ?_).1 _ (parseText_text hc)
  · rw [hsize, hsize']
    omega
  · rw [hbytes _ (by omega) (by omega), hmem, hraced, memDrawList, memRead_memWriteText, if_pos (by omega),
      Nat.add_sub_cancel_left]

end Sys2Proof.Machine

/-!
PROOFS. Commands, completions and reset (60_exceptions.md, 70_reset_and_hazards.md): the step by BUSY and LATENCY (R300,
R301), the issue and its latches (R300, 10_state.md R32), what a completion leaves and raises (R303, R304, R307), what the
host can change while a command is in progress (R344), and reset (R340, R341).
-/
namespace Sys2Proof.Machine

open Sys2Proof

/-! ## The step (60_exceptions.md R300, R301, R315) -/

theorem completeCommand_of_decode_ok {s : State} {i : Instr} (h : decode s.latched.cmd = .ok i) :
    completeCommand s = exec i s := by
  rw [completeCommand, h]

/-- A step with no command in progress is the host's move. -/
theorem step_of_idle {s : State} (idle : s.busy = false) : step s = hostMove s :=
  if_neg (Bool.eq_false_iff.mp idle)

/-- A step before LATENCY has passed counts it down and is the host's move. -/
theorem step_of_waiting {s : State} {n : ℕ} (busy : s.busy = true) (wait : s.wait = n + 1) :
    step s = hostMove { s with wait := n } := by
  rw [step, if_pos busy, wait]

theorem hostMove_of_nil {s : State} (h : s.agenda = []) : hostMove s = .next s := by
  rw [hostMove, h]

theorem hostMove_of_cons {s : State} {ev : HostEvent} {rest : List HostEvent} (h : s.agenda = ev :: rest) :
    hostMove s = hostEvent ev { s with agenda := rest } := by
  rw [hostMove, h]

/-- Settles O4: with no LATENCY left the step is the completion, which runs what the latched word decodes to. -/
theorem stepRunsTheLatchedCommand : Obligations.StepRunsTheLatchedCommand :=
  fun _ _ _ busy wait cmd h => (step_of_wait_zero busy wait).trans (completeCommand_of_decode_ok (cmd ▸ h))

/-- Settles O5: the step is the host's move, with BUSY = 0 and while LATENCY passes. -/
theorem stepLetsTheHostMove : Obligations.StepLetsTheHostMove :=
  ⟨fun _ _ _ idle agenda => (step_of_idle idle).trans (hostMove_of_cons agenda),
    fun _ _ _ _ busy wait agenda => (step_of_waiting busy wait).trans (hostMove_of_cons agenda),
    fun _ idle agenda => (step_of_idle idle).trans (hostMove_of_nil agenda),
    fun _ _ busy wait agenda => (step_of_waiting busy wait).trans (hostMove_of_nil agenda)⟩

/-! ## The issue (60_exceptions.md R300, R301; 10_state.md R32, R45) -/

/-- Settles O9: the host's move is the issue, which faults by BUSY alone. -/
theorem anIssueWhileBusyFaults : Obligations.AnIssueWhileBusyFaults :=
  fun _ _ _ _ _ busy wait agenda =>
    ((step_of_waiting busy wait).trans (hostMove_of_cons agenda)).trans (hostEvent_issue_busy busy)

theorem step_of_idle_issue {s : State} {cmd : Half} {latency : ℕ} {rest : List HostEvent} (idle : s.busy = false)
    (agenda : s.agenda = .issue cmd latency :: rest) : step s = issueCommand { s with agenda := rest } cmd latency :=
  ((step_of_idle idle).trans (hostMove_of_cons agenda)).trans (hostEvent_issue_idle idle)

/-- Settles O8: an issue goes on only when every port it reads holds a value. -/
theorem anIssueReadingAnUndrivenPortFaults : Obligations.AnIssueReadingAnUndrivenPortFaults := by
  intro s cmd latency rest p idle agenda hp hundriven
  rw [step_of_idle_issue idle agenda]
  rcases issueCommand_cases { s with agenda := rest } cmd latency with ⟨q, hq, hnone, e⟩ | ⟨hall, -⟩
  · exact ⟨q, hq, hnone, e⟩
  · exact absurd (hall p hp) (Bool.eq_false_iff.mp hundriven)

/-- A latch holds its port's value where the command reads the port, else what it held (R300, 30_encoding.md R84). -/
theorem sampled_follows {α : Type} {reads : List PortName} {n : PortName} (held : α) {v : Option α}
    (h : n ∈ reads → v.isSome = true) :
    if n ∈ reads then v = some (sampled reads n held v) else sampled reads n held v = held := by
  split
  · next hn =>
    obtain ⟨x, rfl⟩ := Option.isSome_iff_exists.mp (h hn)
    rw [sampled_of_mem held hn rfl]
  · next hn => exact sampled_of_not_mem held v hn

/-- Settles O7: no port read lacks a value, so the issue goes on and each latch follows its port. -/
theorem issueLatchesThePortsRead : Obligations.IssueLatchesThePortsRead := by
  intro s cmd latency rest idle agenda hports
  refine ⟨latchPorts s.latched s.ports cmd, ?_, rfl, sampled_follows _ (hports _), sampled_follows _ (hports _),
    sampled_follows _ (hports _), sampled_follows _ (hports _), sampled_follows _ (hports _)⟩
  rw [step_of_idle_issue idle agenda]
  rcases issueCommand_cases { s with agenda := rest } cmd latency with ⟨p, hp, hnone, -⟩ | ⟨-, e⟩
  · exact absurd (hports p hp) (Bool.eq_false_iff.mp hnone)
  · exact e

/-! ## What a completion leaves (60_exceptions.md R303, R304) -/

/-- Settles O49: of the states a completion can leave, each error's names the commands that raise it. -/
theorem commandsRaiseOnlyTheirOwnCodes : Obligations.CommandsRaiseOnlyTheirOwnCodes := by
  refine ⟨fun i s t h => ?_, fun s t w e busy wait cmd hw hstep => ?_⟩
  · rcases exec_next h with ⟨-, w, d, rfl, -, -⟩ | ⟨st, rfl, ⟨rfl, rfl | rfl⟩ | ⟨rfl, rfl⟩ | ⟨rfl, rfl⟩⟩ |
      ⟨rfl, addr, len, d, rfl, -⟩ | ⟨rfl, mem, d, -, -, rfl | ⟨n, ht, -, -⟩⟩
    · cases i with
      | validate | validateFinite | round | parse | format => exact .inl rfl
      | _ => rfl
    · exact .inr rfl
    · exact .inr rfl
    · exact .inr rfl
    · exact .inr (.inl rfl)
    · exact .inr (.inr rfl)
    · exact .inr rfl
    · exact .inl (congrArg State.status ht)
  · rw [step_of_wait_zero busy wait, completeCommand_of_decode_error (cmd ▸ hw)] at hstep
    cases hstep
    rfl

/-- A completion leaves what is neither STATUS, a result register, BUSY, the races, BUF nor a draw. -/
theorem CompletesTo.frame {i : Instr} {s t : State} (h : CompletesTo i s t) :
    t = { s with status := t.status, result := t.result, rlen := t.rlen, eaddr := t.eaddr, elen := t.elen, busy := false,
                 raced := [], mem := t.mem, draws := t.draws } := by
  rcases h with ⟨-, w, d, rfl, -, -⟩ | ⟨st, rfl, -⟩ | ⟨-, addr, len, d, rfl, -⟩ |
    ⟨-, mem, d, -, -, rfl | ⟨n, ht, -, -⟩⟩
  · rfl
  · rfl
  · rfl
  · rfl
  · rw [ht]

/-- Only FORMAT writes BUF, and only FORMAT and PARSE draw. -/
theorem CompletesTo.buf_and_draws {i : Instr} {s t : State} (h : CompletesTo i s t) :
    s.draws ≤ t.draws ∧ (i ≠ .format → t.mem = s.mem) ∧ (i ≠ .format → i ≠ .parse → t.draws = s.draws) := by
  rcases h with ⟨-, w, d, rfl, hd, hparse⟩ | ⟨st, rfl, -⟩ | ⟨rfl, addr, len, d, rfl, hd⟩ |
    ⟨rfl, mem, d, hd, -, rfl | ⟨n, -, -, rfl⟩⟩
  · exact ⟨hd, fun _ => rfl, fun _ => hparse⟩
  · exact ⟨le_rfl, fun _ => rfl, fun _ _ => rfl⟩
  · exact ⟨hd, fun _ => rfl, fun _ hi => absurd rfl hi⟩
  · exact ⟨hd, fun hi => absurd rfl hi, fun hi => absurd rfl hi⟩
  · exact ⟨hd, fun hi => absurd rfl hi, fun hi => absurd rfl hi⟩

/-- Settles O50: each clause is a field of the frame of a completion. -/
theorem completionsChangeOnlyTheResults : Obligations.CompletionsChangeOnlyTheResults := by
  intro i s t h
  have written := (exec_next h).buf_and_draws
  rw [(exec_next h).frame]
  exact ⟨rfl, rfl, rfl, rfl, rfl, rfl, rfl, rfl, written⟩

/-! ## The faults of a completion (60_exceptions.md R307) -/

/-- What the completion of `i` can answer: a next state, or one of the two faults of R307 that have their cause in an
operand or in BUF. -/
def AnswersAsListed (i : Instr) (s : State) (a : Answer) : Prop :=
  (∃ t, a = .next t) ∨
  (∃ w, a = .fault (.nonCanonicalOperand w) ∧ canonical w = false ∧ (s.latched.opa = w ∨ s.latched.opb = w)) ∨
  (∃ b, a = .fault (.unwrittenBuffer b) ∧ i = .parse ∧ memRead s.mem b = none)

/-- A command that admits OPA and then completes. -/
theorem answersAsListed_requireCanonical (i : Instr) {s : State} {k : Answer} (hk : ∃ t, k = .next t) :
    AnswersAsListed i s (requireCanonical s.latched.opa k) := by
  rcases requireCanonical_cases s.latched.opa k with ⟨-, e⟩ | ⟨hc, e⟩ <;> rw [e]
  · exact .inl hk
  · exact .inr (.inl ⟨_, rfl, hc, .inl rfl⟩)

theorem answersAsListed_binaryWord (i : Instr) (s : State) (f : Word → Word → Word) :
    AnswersAsListed i s (binaryWord s f) := by
  rcases binaryWord_cases s f with ⟨-, -, e⟩ | ⟨w, hw, hc, e⟩ <;> rw [e]
  · exact .inl ⟨_, rfl⟩
  · exact .inr (.inl ⟨w, rfl, hc, hw⟩)

/-- The address a failed read of a region reports holds no value. -/
theorem memRead_of_readRegion_error {mem : List Host.Cell} {raced : List Nat} {n a d b : Nat}
    (h : readRegion mem raced a n d = .error b) : memRead mem b = none := by
  induction n generalizing a d with
  | zero => cases h
  | succ n ih =>
    rw [readRegion] at h
    split at h
    · split at h
      · cases h
      · next tail =>
        cases h
        exact ih tail
    · split at h
      · next unwritten =>
        cases h
        exact unwritten
      · split at h
        · cases h
        · next tail =>
          cases h
          exact ih tail

theorem answersAsListed_execParse (s : State) : AnswersAsListed .parse s (execParse s) := by
  by_cases hin : regionInside s s.latched.addr s.latched.len = true
  · cases hr : readRegion s.mem s.raced (unsigned32 s.latched.addr) (unsigned32 s.latched.len) s.draws with
    | ok read => exact .inl ⟨_, execParse_of_read hin hr⟩
    | error b =>
      exact .inr (.inr ⟨b, execParse_of_read_error hin hr, rfl, memRead_of_readRegion_error hr⟩)
  · exact .inl ⟨_, execParse_of_outside hin⟩

theorem exec_answersAsListed (i : Instr) (s : State) : AnswersAsListed i s (exec i s) := by
  cases i with
  | pack | unpackM | unpackE | isFinite | validate | validateFinite =>
    exact .inl (exec_completes_of_any_word (by decide) s)
  | fromParts => exact .inl ⟨_, succeed_eq s _⟩
  | neg | abs => exact answersAsListed_requireCanonical _ ⟨_, succeed_eq s _⟩
  | add => exact answersAsListed_binaryWord _ s addWords
  | sub => exact answersAsListed_binaryWord _ s fun a b => addWords a (negWord b)
  | mul => exact answersAsListed_binaryWord _ s mulWords
  | div => exact answersAsListed_binaryWord _ s divWords
  | cmp => exact answersAsListed_binaryWord _ s fun a b => word64 (compareWords a b)
  | min => exact answersAsListed_binaryWord _ s fun a b => if compareWords a b ≤ 0 then a else b
  | max => exact answersAsListed_binaryWord _ s fun a b => if 0 ≤ compareWords a b then a else b
  | eq => exact answersAsListed_binaryWord _ s fun a b => word64 (if compareWords a b = 0 then 1 else 0)
  | round =>
    refine answersAsListed_requireCanonical _ ?_
    split
    · exact ⟨_, succeed_eq s _⟩
    · exact ⟨_, raise_typeError s⟩
  | parse => exact answersAsListed_execParse s
  | format =>
    refine answersAsListed_requireCanonical _ ?_
    split
    · split
      · exact ⟨_, rfl⟩
      · exact ⟨_, raise_boundsError _⟩
    · exact ⟨_, raise_boundsError _⟩

/-- Settles O52: the faults are those a completion can answer, and none of its answers is a refusal. -/
theorem completionsFaultOnlyAsListed : Obligations.CompletionsFaultOnlyAsListed := by
  intro i s
  rcases exec_answersAsListed i s with ⟨t, e⟩ | ⟨w, e, hc, hw⟩ | ⟨b, e, hi, hb⟩ <;> rw [e]
  · exact ⟨nofun, nofun⟩
  · refine ⟨fun f hf => ?_, nofun⟩
    cases hf
    exact .inl ⟨w, rfl, hc, hw⟩
  · refine ⟨fun f hf => ?_, nofun⟩
    cases hf
    exact .inr ⟨b, rfl, hi, hb⟩

/-! ## The one cause of UnwrittenPort (10_state.md R32, R45) -/

theorem exec_ne_unwrittenPort (i : Instr) (s : State) (p : PortName) : exec i s ≠ .fault (.unwrittenPort p) := by
  intro h
  rcases exec_answersAsListed i s with ⟨t, e⟩ | ⟨w, e, -⟩ | ⟨b, e, -⟩ <;> cases e.symm.trans h

theorem completeCommand_ne_unwrittenPort (s : State) (p : PortName) :
    completeCommand s ≠ .fault (.unwrittenPort p) := by
  cases hw : decode s.latched.cmd with
  | ok i =>
    rw [completeCommand_of_decode_ok hw]
    exact exec_ne_unwrittenPort i s p
  | error e =>
    rw [completeCommand_of_decode_error hw]
    nofun

theorem hostReadRegister_ne_unwrittenPort {α : Type} (s : State) (r : ResultName) (v : Option α) (reading : α → Reading)
    (p : PortName) : hostReadRegister s r v reading ≠ .fault (.unwrittenPort p) := by
  intro h
  rcases hostReadRegister_cases s r v reading with ⟨x, -, e⟩ | ⟨-, e⟩ <;> cases e.symm.trans h

/-- Of the host's interactions only an issue with BUSY = 0 raises UnwrittenPort. -/
theorem issue_of_hostEvent_unwrittenPort {ev : HostEvent} {s : State} {p : PortName}
    (h : hostEvent ev s = .fault (.unwrittenPort p)) :
    ∃ cmd latency, ev = .issue cmd latency ∧ s.busy = false ∧ p ∈ commandReads cmd ∧ s.ports.holds p = false := by
  cases ev with
  | driveOpa v | driveOpb v | driveOpn v | driveAddr v | driveLen v | readStatus | readBusy | reset => cases h
  | issue cmd latency =>
    cases hb : s.busy with
    | true => cases (hostEvent_issue_busy hb).symm.trans h
    | false =>
      rw [hostEvent_issue_idle hb] at h
      rcases issueCommand_cases s cmd latency with ⟨q, hq, hnone, e⟩ | ⟨-, e⟩ <;> cases e.symm.trans h
      exact ⟨cmd, latency, rfl, rfl, hq, hnone⟩
  | await =>
    cases hb : s.busy with
    | true => cases (hostEvent_await_busy hb).symm.trans h
    | false => cases (hostEvent_await_idle hb).symm.trans h
  | readResult | readRlen | readEaddr | readElen => exact absurd h (hostReadRegister_ne_unwrittenPort s _ _ _ p)
  | writeBuf a v => rcases hostWriteBuf_cases s a v with ⟨-, e⟩ | ⟨-, -, e⟩ | ⟨-, -, e⟩ <;> cases e.symm.trans h
  | readBuf a => rcases hostReadBuf_cases s a with ⟨-, e⟩ | ⟨-, -, e⟩ | ⟨-, -, v, -, e⟩ <;> cases e.symm.trans h

/-- Settles O57: a step is a completion, which never raises it, or a move of the host. -/
theorem onlyAnIssueRaisesUnwrittenPort : Obligations.OnlyAnIssueRaisesUnwrittenPort := by
  intro s p h
  rcases step_cases s with hc | ⟨n, hm⟩
  · exact absurd (hc.symm.trans h) (completeCommand_ne_unwrittenPort s p)
  · rw [hm] at h
    cases agenda : s.agenda with
    | nil => cases (hostMove_of_nil (s := { s with wait := n }) agenda).symm.trans h
    | cons ev rest =>
      rw [hostMove_of_cons (s := { s with wait := n }) agenda] at h
      obtain ⟨cmd, latency, rfl, idle, hp, hnone⟩ := issue_of_hostEvent_unwrittenPort h
      exact ⟨cmd, latency, rest, rfl, idle, hp, hnone⟩

/-! ## While a command is in progress (60_exceptions.md R300, 70_reset_and_hazards.md R344) -/

/-- `t` is `s` but for the ports, BUF with its races and draws, and the host's own data. -/
def HostChanges (s t : State) : Prop :=
  t = { s with ports := t.ports, mem := t.mem, raced := t.raced, draws := t.draws, agenda := t.agenda, seen := t.seen }

theorem hostReadRegister_changes {α : Type} {s t : State} {r : ResultName} {v : Option α} {reading : α → Reading}
    (h : hostReadRegister s r v reading = .next t) : HostChanges s t := by
  rcases hostReadRegister_cases s r v reading with ⟨x, -, e⟩ | ⟨-, e⟩ <;> cases e.symm.trans h
  rfl

/-- While BUSY = 1 all that the host can do short of a reset is `HostChanges`: an issue would fault. -/
theorem hostEvent_busy_changes {ev : HostEvent} {s t : State} (busy : s.busy = true) (hev : ev ≠ .reset)
    (h : hostEvent ev s = .next t) : HostChanges s t := by
  cases ev with
  | driveOpa v | driveOpb v | driveOpn v | driveAddr v | driveLen v | readStatus | readBusy =>
    cases h
    rfl
  | issue cmd latency => cases (hostEvent_issue_busy busy).symm.trans h
  | await =>
    cases (hostEvent_await_busy busy).symm.trans h
    rfl
  | readResult | readRlen | readEaddr | readElen => exact hostReadRegister_changes h
  | writeBuf a v =>
    rcases hostWriteBuf_cases s a v with ⟨-, e⟩ | ⟨-, -, e⟩ | ⟨-, -, e⟩ <;> cases e.symm.trans h
    · rfl
    · rfl
  | readBuf a =>
    rcases hostReadBuf_cases s a with ⟨-, e⟩ | ⟨-, -, e⟩ | ⟨-, -, v, -, e⟩ <;> cases e.symm.trans h
    · rfl
    · rfl
  | reset => exact absurd rfl hev

theorem applyReset_busy (s : State) : (applyReset s).busy = false := by
  unfold applyReset
  split <;> rfl

/-- The move of the host while LATENCY passes. -/
theorem hostMove_busy_changes {s t : State} (busy : s.busy = true) (h : hostMove s = .next t) :
    HostChanges s t ∨ ∃ rest, s.agenda = .reset :: rest ∧ t.busy = false := by
  cases agenda : s.agenda with
  | nil =>
    cases (hostMove_of_nil agenda).symm.trans h
    exact .inl rfl
  | cons ev rest =>
    rw [hostMove_of_cons agenda] at h
    by_cases hev : ev = .reset
    · subst hev
      cases h
      exact .inr ⟨rest, rfl, applyReset_busy _⟩
    · exact .inl (hostEvent_busy_changes (s := { s with agenda := rest }) busy hev h)

/-- Settles O6: the step counts one down, and the host's move leaves the command and the result registers. -/
theorem aCommandInProgressIsInvisibleAndAdvances : Obligations.ACommandInProgressIsInvisibleAndAdvances := by
  intro s t n busy wait h
  rw [step_of_waiting busy wait] at h
  refine (hostMove_busy_changes (s := { s with wait := n }) busy h).imp_left fun changes => ?_
  rw [HostChanges] at changes
  rw [changes]
  exact ⟨busy, rfl, rfl, rfl, rfl, rfl, rfl, rfl⟩

/-! ## Reset (70_reset_and_hazards.md R340, R341; 10_state.md R49) -/

/-- An abandoned FORMAT draws the part of its region that BUF has, and no other byte. -/
theorem memRead_abandonFormat (s : State) (b : Nat) : memRead s.abandonFormat.mem b =
    if s.latched.addr.toNat ≤ b ∧
        b < s.latched.addr.toNat + clipRegion s.bufSize.val s.latched.addr.toNat s.latched.len.toNat then
      some (Config.freeByte (s.draws + (b - s.latched.addr.toNat)))
    else memRead s.mem b :=
  memRead_memDrawRegion _ _ _ _ _

/-- Settles O13: the registers are reset alike, after the abandoned region has been drawn or not. -/
theorem resetLeavesTheResetState : Obligations.ResetLeavesTheResetState := by
  intro s
  by_cases hformat : s.inProgress = some .format
  · refine ⟨_, congrArg Host.Outcome.next (if_pos hformat), rfl, fun h => absurd hformat h, ?_⟩
    rintro _ _ - rfl rfl b
    rw [State.resetRegisters_mem, memRead_abandonFormat]
    unfold clipRegion
    refine ⟨fun outside => if_neg (by omega), fun low high inBuf => ⟨_, Nat.le_add_right _ _, if_pos (by omega)⟩⟩
  · exact ⟨_, congrArg Host.Outcome.next (if_neg hformat), rfl, fun _ => ⟨rfl, rfl⟩, fun _ _ h => absurd h hformat⟩

end Sys2Proof.Machine

/-!
PROOFS. The order of the comparator is transitive (the opening of 45_comparator.md): with a sentinel involved it is that of
the words as integers, where the infinities bound every finite canonical word.
-/
namespace Sys2Proof.Machine

open Sys2Proof

/-! ## Words as integers (10_state.md R33) -/

theorem mant_eq_toInt_div (w : Word) : mant w = w.toInt / 2 ^ 9 := by
  obtain ⟨low, high⟩ := mant_range w
  have h := congrArg BitVec.toInt (word64_mant w)
  rw [BitVec.toInt_sshiftRight, Int.shiftRight_eq_div_pow, word64, BitVec.toInt_ofInt,
    Int.bmod_eq_of_le (by norm_num; omega) (by norm_num; omega)] at h
  exact h

/-- Among the canonical words other than NaN the infinities are the ends also as integers, and only they. -/
theorem toInt_bounds {w : Word} (cw : canonical w = true) (hw : w ≠ nan) :
    (ninf.toInt ≤ w.toInt ∧ w.toInt ≤ pinf.toInt) ∧
      (isFiniteWord w = true ↔ ninf.toInt < w.toInt ∧ w.toInt < pinf.toInt) := by
  by_cases fw : isFiniteWord w = true
  · have hm := mant_eq_toInt_div w
    have hexpo := (isFiniteWord_iff w).mp fw
    have hlow : ninf.toInt = -9223372036854775040 := by decide
    have hhigh : pinf.toInt = 9223372036854775552 := by decide
    rw [canonical_iff, sentinel_iff, Int.abs_eq_natAbs] at cw
    have strict : ninf.toInt < w.toInt ∧ w.toInt < pinf.toInt := by omega
    exact ⟨⟨strict.1.le, strict.2.le⟩, iff_of_true fw strict⟩
  · rcases (sentinel_of_not_finite cw fw).resolve_left hw with rfl | rfl
    · decide
    · decide

/-! ## When compare gives no 1 (R190, R191) -/

theorem sign_le_zero_iff (n : ℤ) : sign n ≤ 0 ↔ n ≤ 0 := by
  unfold sign
  split_ifs <;> omega

theorem ratSign_le_zero_iff (x : ℚ) : ratSign x ≤ 0 ↔ x ≤ 0 := by
  unfold ratSign
  split_ifs with neg hzero
  · simp [neg.le]
  · simp [hzero]
  · simp [lt_of_le_of_ne (not_lt.mp neg) (Ne.symm hzero)]

theorem compareWords_le_zero_of_finite {a b : Word} (fa : isFiniteWord a = true) (fb : isFiniteWord b = true) :
    compareWords a b ≤ 0 ↔ ratVal a ≤ ratVal b := by
  rw [compareWords_of_finite fa fb, cmpFinite_eq_ratSign, ratSign_le_zero_iff, sub_nonpos]

theorem compareWords_le_zero_of_infinity {a b : Word} (h : ¬(isFiniteWord a = true ∧ isFiniteWord b = true))
    (ha : a ≠ nan) (hb : b ≠ nan) : compareWords a b ≤ 0 ↔ a.toInt ≤ b.toInt := by
  rw [compareWords_of_not_finite h, cmpNonfinite_of_ne_nan ha hb, sign_le_zero_iff, sub_nonpos]

/-- NaN is the greatest word. -/
theorem compareWords_nan_le_zero_iff (b : Word) : compareWords nan b ≤ 0 ↔ b = nan := by
  by_cases hb : b = nan
  · subst hb
    decide
  · simp [compareWords_nan hb, hb]

theorem compareWords_le_zero_nan (a : Word) : compareWords a nan ≤ 0 := by
  by_cases ha : a = nan
  · exact ha ▸ (compareWords_nan_le_zero_iff nan).mpr rfl
  · rw [compareWords_antisymm, compareWords_nan ha]
    decide

/-! ## Transitivity -/

/-- Without NaN: three finite words go by their values, any others by their integers, where an infinity in the middle
leaves no room for two finite words around it. -/
theorem compareWords_trans_of_ne_nan {a b c : Word} (ca : canonical a = true) (cb : canonical b = true)
    (cc : canonical c = true) (ha : a ≠ nan) (hb : b ≠ nan) (hc : c ≠ nan) (hab : compareWords a b ≤ 0)
    (hbc : compareWords b c ≤ 0) : compareWords a c ≤ 0 := by
  by_cases finite : isFiniteWord a = true ∧ isFiniteWord b = true ∧ isFiniteWord c = true
  · obtain ⟨fa, fb, fc⟩ := finite
    rw [compareWords_le_zero_of_finite fa fb] at hab
    rw [compareWords_le_zero_of_finite fb fc] at hbc
    exact (compareWords_le_zero_of_finite fa fc).mpr (hab.trans hbc)
  · have hab' := fun h => (compareWords_le_zero_of_infinity h ha hb).mp hab
    have hbc' := fun h => (compareWords_le_zero_of_infinity h hb hc).mp hbc
    obtain ⟨boundsA, finiteA⟩ := toInt_bounds ca ha
    obtain ⟨boundsB, finiteB⟩ := toInt_bounds cb hb
    obtain ⟨boundsC, finiteC⟩ := toInt_bounds cc hc
    have hac : ¬(isFiniteWord a = true ∧ isFiniteWord c = true) ∧ a.toInt ≤ c.toInt := by
      simp only [finiteA, finiteB, finiteC] at finite hab' hbc' ⊢
      omega
    exact (compareWords_le_zero_of_infinity hac.1 ha hc).mpr hac.2

/-- Settles O37: NaN is above every word, and below it the order is transitive. -/
theorem compareIsTransitive : Obligations.CompareIsTransitive := by
  intro a b c ca cb cc hab hbc
  by_cases hc : c = nan
  · exact hc ▸ compareWords_le_zero_nan a
  have hb : b ≠ nan := by
    rintro rfl
    exact hc ((compareWords_nan_le_zero_iff c).mp hbc)
  have ha : a ≠ nan := by
    rintro rfl
    exact hb ((compareWords_nan_le_zero_iff b).mp hab)
  exact compareWords_trans_of_ne_nan ca cb cc ha hb hc hab hbc

end Sys2Proof.Machine

/-!
PROOFS. A PARSE and raced bytes (20_memory.md section 4, log 7): the machine reads its region alike whatever BUF holds at
the raced bytes.
-/
namespace Sys2Proof.Machine

open Sys2Proof

/-- An answer with `mem` as BUF in its next state. -/
def answerWithMem (mem : List Host.Cell) : Answer → Answer
  | .next t => .next { t with mem := mem }
  | a => a

/-- PARSE neither reads nor writes BUF at raced bytes. -/
theorem execParse_withMem {s : State} {mem : List Host.Cell}
    (h : ∀ a, a ∉ s.raced → memRead mem a = memRead s.mem a) :
    execParse { s with mem := mem } = answerWithMem mem (execParse s) := by
  have hread : readRegion mem s.raced (unsigned32 s.latched.addr) (unsigned32 s.latched.len) s.draws =
      readRegion s.mem s.raced (unsigned32 s.latched.addr) (unsigned32 s.latched.len) s.draws :=
    readRegion_congr fun b _ _ => ⟨Iff.rfl, h b⟩
  by_cases hin : regionInside s s.latched.addr s.latched.len = true
  · cases hr : readRegion s.mem s.raced (unsigned32 s.latched.addr) (unsigned32 s.latched.len) s.draws with
    | ok read =>
      rw [execParse_of_read hin hr, execParse_of_read (s := { s with mem := mem }) hin (hread.trans hr)]
      cases parseText read.1 <;> rfl
    | error b =>
      rw [execParse_of_read_error hin hr,
        execParse_of_read_error (s := { s with mem := mem }) hin (hread.trans hr)]
      rfl
  · rw [execParse_of_outside hin, execParse_of_outside (s := { s with mem := mem }) hin]
    rfl

/-- Settles O42: the answer is the same but for the BUF it carries along. -/
theorem aRacedByteIsNotRead : Obligations.ARacedByteIsNotRead :=
  fun _ mem h =>
    ⟨fun _ e => (execParse_withMem h).trans (congrArg (answerWithMem mem) e),
      fun _ e => (execParse_withMem h).trans (congrArg (answerWithMem mem) e)⟩

end Sys2Proof.Machine

/-!
PROOFS. The text formatter (47_text_formatter.md): its digits are the decimal text, its three forms of a magnitude are the
cases of R251 to R254, whose lengths give R255; and the bytes of BUF after a FORMAT that fits its region (R256) or not
(R257).
-/
namespace Sys2Proof.Machine

open Sys2Proof

/-! ## The digits of a magnitude (47_text_formatter.md R251) -/

theorem decimalText_of_lt {n : ℕ} (h : n < 10) : decimalText n = [digitByte n] := by
  by_cases h0 : n = 0
  · subst h0
    rfl
  · rw [decimalText, if_neg h0, Nat.digits_of_lt 10 n h0 h]
    rfl

theorem decimalText_of_ge {n : ℕ} (h : 10 ≤ n) : decimalText n = decimalText (n / 10) ++ [digitByte (n % 10)] := by
  rw [decimalText, decimalText, if_neg (by omega), if_neg (by omega), Nat.digits_def' (by norm_num) (by omega),
    List.reverse_cons, List.map_append]
  rfl

theorem digitBytesAux_eq_decimalText (fuel n : ℕ) (h : n ≤ fuel) : digitBytesAux fuel n = decimalText n := by
  induction fuel generalizing n with
  | zero => exact (decimalText_of_lt (by omega)).symm
  | succ fuel ih =>
    rw [digitBytesAux]
    split
    · next hn => exact (decimalText_of_lt hn).symm
    · next hn => rw [ih (n / 10) (by omega), decimalText_of_ge (not_lt.mp hn)]

theorem digitBytes_eq_decimalText (n : ℕ) : digitBytes n = decimalText n := digitBytesAux_eq_decimalText n n le_rfl

theorem length_digitBytesAux (fuel n : ℕ) : (digitBytesAux fuel n).length = digitsAux fuel n := by
  induction fuel generalizing n with
  | zero => rfl
  | succ fuel ih =>
    rw [digitBytesAux, digitsAux]
    split
    · rfl
    · rw [List.length_append, ih, List.length_singleton]

/-- The text of a magnitude has as many digits as R12 counts. -/
theorem length_decimalText (m : ℤ) : (decimalText m.natAbs).length = digits m := by
  rw [← digitBytes_eq_decimalText]
  exact length_digitBytesAux _ _

/-! ## The forms of a text (47_text_formatter.md R250 to R254) -/

theorem magnitudeText_of_nonpos (n : ℕ) {e : ℤ} (h : e ≤ 0) :
    magnitudeText n e = decimalText n ++ List.replicate e.natAbs 0x30#8 := by
  rw [magnitudeText, digitBytes_eq_decimalText, if_pos h, show (-e).toNat = e.natAbs by omega]

theorem magnitudeText_of_inside {n : ℕ} {e : ℤ} (h : 0 < e) (hlen : e < (decimalText n).length) :
    magnitudeText n e = (decimalText n).take ((decimalText n).length - e.natAbs) ++ [0x2E#8] ++
      (decimalText n).drop ((decimalText n).length - e.natAbs) := by
  rw [magnitudeText, digitBytes_eq_decimalText, if_neg (by omega), show e.toNat = e.natAbs by omega,
    if_pos (by omega)]

theorem magnitudeText_of_beyond {n : ℕ} {e : ℤ} (h : 0 < e) (hlen : (decimalText n).length ≤ e) :
    magnitudeText n e =
      [0x30#8, 0x2E#8] ++ List.replicate (e.natAbs - (decimalText n).length) 0x30#8 ++ decimalText n := by
  rw [magnitudeText, digitBytes_eq_decimalText, if_neg (by omega), show e.toNat = e.natAbs by omega,
    if_neg (by omega)]

/-- Settles O44: the text of a finite word is its sign and its magnitude's text in the form of its exponent. -/
theorem textFollowsTheCases : Obligations.TextFollowsTheCases := by
  refine ⟨rfl, rfl, rfl, fun w _ fw => ⟨_, _, rfl, rfl, ?_⟩⟩
  rw [text_of_finite fw]
  refine ⟨fun he => ?_, fun he => ?_, fun he hlen => ?_, fun he hlen => ?_⟩
  · rw [magnitudeText_of_nonpos _ he.le, he]
    simp
  · rw [magnitudeText_of_nonpos _ he.le, List.append_assoc]
  · rw [magnitudeText_of_inside he hlen]
    simp only [List.append_assoc]
  · rw [magnitudeText_of_beyond he hlen]
    simp only [List.append_assoc]

/-! ## The lengths (47_text_formatter.md R255) -/

/-- The length of a magnitude's text in each of its forms. -/
theorem length_magnitudeText (m e : ℤ) :
    (e ≤ 0 → ((magnitudeText m.natAbs e).length : ℤ) = digits m - e) ∧
    (0 < e → e < digits m → (magnitudeText m.natAbs e).length = digits m + 1) ∧
    ((digits m : ℤ) ≤ e → ((magnitudeText m.natAbs e).length : ℤ) = 2 + e) := by
  have hpos := digits_pos m
  rw [← length_decimalText] at hpos ⊢
  refine ⟨fun he => ?_, fun he hlen => ?_, fun hlen => ?_⟩
  · rw [magnitudeText_of_nonpos _ he, List.length_append, List.length_replicate]
    omega
  · rw [magnitudeText_of_inside he hlen]
    simp only [List.length_append, List.length_take, List.length_drop, List.length_singleton]
    omega
  · rw [magnitudeText_of_beyond (by omega) hlen]
    simp only [List.length_append, List.length_replicate, List.length_cons, List.length_nil]
    omega

theorem length_text_of_finite {w : Word} (fw : isFiniteWord w = true) :
    (text w).length = (if mant w < 0 then 1 else 0) + (magnitudeText (mant w).natAbs (expo w)).length := by
  rw [text_of_finite fw, List.length_append]
  split <;> rfl

/-- R255's table for a finite word. -/
theorem length_text_table {w : Word} (fw : isFiniteWord w = true) :
    (expo w ≤ 0 → ((text w).length : ℤ) = (if mant w < 0 then 1 else 0) + digits (mant w) - expo w) ∧
    (0 < expo w → expo w < digits (mant w) →
      ((text w).length : ℤ) = (if mant w < 0 then 1 else 0) + digits (mant w) + 1) ∧
    ((digits (mant w) : ℤ) ≤ expo w → ((text w).length : ℤ) = (if mant w < 0 then 1 else 0) + 2 + expo w) := by
  obtain ⟨whole, inside, beyond⟩ := length_magnitudeText (mant w) (expo w)
  rw [length_text_of_finite fw]
  push_cast
  refine ⟨fun he => ?_, fun he hd => ?_, fun hd => ?_⟩
  · have := whole he
    omega
  · have := inside he hd
    omega
  · have := beyond hd
    omega

theorem digits_le_of_finite {w : Word} (cw : canonical w = true) (fw : isFiniteWord w = true) :
    digits (mant w) ≤ 16 := by
  have hexpo := (isFiniteWord_iff w).mp fw
  rw [canonical_iff, sentinel_iff, Int.abs_eq_natAbs] at cw
  by_cases hm : mant w = 0
  · rw [hm]
    decide
  · have hpow : 10 ^ (digits (mant w) - 1) < 10 ^ 16 := (pow_digits_le_natAbs hm).trans_lt (by omega)
    have := (Nat.pow_lt_pow_iff_right (by norm_num)).mp hpow
    omega

/-- R255's bounds: at most a sign, 16 digits and 255 zeros; with a point at most a sign, `0.` and 255 digits. -/
theorem length_text_le {w : Word} (cw : canonical w = true) :
    (text w).length ≤ 272 ∧ (0 < expo w → (text w).length ≤ 258) := by
  by_cases fw : isFiniteWord w = true
  · obtain ⟨whole, inside, beyond⟩ := length_text_table fw
    have hdigits := digits_le_of_finite cw fw
    have hexpo := (isFiniteWord_iff w).mp fw
    have hrange := expo_range w
    omega
  · rcases sentinel_of_not_finite cw fw with rfl | rfl | rfl <;> decide

/-- Settles O45: the table is that of the forms, and each longest text is read off its row. -/
theorem textLengthFollowsTheTable : Obligations.TextLengthFollowsTheTable := by
  refine ⟨rfl, rfl, rfl, fun w _ fw => ⟨_, hasDigits_digits _, length_text_table fw⟩, fun _ => length_text_le, ?_, ?_⟩
  · obtain ⟨whole, -, -⟩ := length_text_table (w := pack (-9999999999999999) (-255)) (by decide)
    have hm : mant (pack (-9999999999999999) (-255)) = -9999999999999999 := by decide
    have he : expo (pack (-9999999999999999) (-255)) = -255 := by decide
    have hdigits : digits (-9999999999999999) = 16 := digits_unique (by decide) (by decide) (by decide)
    rw [hm, he, hdigits] at whole
    omega
  · obtain ⟨-, -, beyond⟩ := length_text_table (w := pack (-1) 255) (by decide)
    have hm : mant (pack (-1) 255) = -1 := by decide
    have he : expo (pack (-1) 255) = 255 := by decide
    have hdigits : digits (-1) = 1 := rfl
    rw [hm, he, hdigits] at beyond
    omega

/-! ## BUF after a FORMAT (47_text_formatter.md R256, R257) -/

/-- Every listed address holds one of the bytes drawn. -/
theorem memRead_memDrawList_of_mem {as : List Nat} {b : Nat} (h : b ∈ as) (mem : List Host.Cell) (d : Nat) :
    ∃ k, d ≤ k ∧ k < d + as.length ∧ memRead (memDrawList mem as d) b = some (Config.freeByte k) := by
  induction as generalizing mem d with
  | nil => exact absurd h List.not_mem_nil
  | cons a as ih =>
    rw [memDrawList, List.length_cons]
    by_cases later : b ∈ as
    · obtain ⟨k, low, high, hk⟩ := ih later (memWrite mem a (Config.freeByte d)) (d + 1)
      exact ⟨k, by omega, by omega, hk⟩
    · obtain rfl : b = a := (List.mem_cons.mp h).resolve_right later
      refine ⟨d, le_rfl, by omega, ?_⟩
      rw [memRead_memDrawList_other as _ _ b later, memRead_memWrite_same]

theorem execFormat_of_fits {s : State} (ca : canonical s.latched.opa = true)
    (hin : regionInside s s.latched.addr s.latched.len = true)
    (hfits : (text s.latched.opa).length ≤ s.latched.len.toNat) :
    execFormat s = succeedFormat
      (State.settleRaces { s with mem := memWriteText s.mem s.latched.addr.toNat (text s.latched.opa) })
      (text s.latched.opa).length := by
  rw [execFormat, requireCanonical_of _ ca, if_pos hin]
  exact if_pos hfits

theorem execFormat_of_short {s : State} (ca : canonical s.latched.opa = true)
    (hin : regionInside s s.latched.addr s.latched.len = true)
    (hshort : s.latched.len.toNat < (text s.latched.opa).length) :
    execFormat s =
      .next (afterError (s.drawRegion s.latched.addr.toNat s.latched.len.toNat).settleRaces 0x04#8) := by
  rw [execFormat, requireCanonical_of _ ca, if_pos hin]
  exact if_neg hshort.not_ge

theorem readRaces_of_idle {s : State} (idle : s.busy = false) (a : Nat) : ¬s.readRaces a = true := by
  simp [readRaces_iff, State.inProgress, idle]

/-- Settles O46: the races settled after the text touch raced bytes only, and the block is idle when the host reads. -/
theorem formatWritesTheText : Obligations.FormatWritesTheText := by
  rintro s _ _ _ rfl rfl rfl ca hin hfits
  have hmem : ∀ a, a ∉ s.raced →
      memRead (memDrawList (memWriteText s.mem s.latched.addr.toNat (text s.latched.opa)) s.raced s.draws) a =
        if s.latched.addr.toNat ≤ a ∧ a < s.latched.addr.toNat + (text s.latched.opa).length then
          (text s.latched.opa)[a - s.latched.addr.toNat]? else memRead s.mem a := fun a ha => by
    rw [memRead_memDrawList_other _ _ _ a ha, memRead_memWriteText]
  refine ⟨_, execFormat_of_fits ca ((regionInside_iff s _ _).mpr hin) hfits, rfl, rfl, hmem, fun a v ha low hv => ?_⟩
  obtain ⟨high, -⟩ := List.getElem?_eq_some_iff.mp hv
  refine hostReadBuf_of_value (lt_of_lt_of_le (by omega) hin) (readRaces_of_idle rfl _) ?_
  exact (hmem a.toNat ha).trans ((if_pos (by omega)).trans hv)

/-- Settles O47: a byte of the region holds its own draw or, when raced, the later one that settles the race. -/
theorem formatIntoAShortRegionDrawsTheRegion : Obligations.FormatIntoAShortRegionDrawsTheRegion := by
  rintro s _ _ _ rfl rfl rfl ca hin hshort
  refine ⟨_, execFormat_of_short ca ((regionInside_iff s _ _).mpr hin) hshort, rfl, fun a low high => ?_,
    fun a outside ha => ?_⟩
  · by_cases raced : a ∈ s.raced
    · obtain ⟨k, hlow, hhigh, hk⟩ := memRead_memDrawList_of_mem raced
        (s.drawRegion s.latched.addr.toNat s.latched.len.toNat).mem
        (s.drawRegion s.latched.addr.toNat s.latched.len.toNat).draws
      exact ⟨k, le_trans (Nat.le_add_right _ _) hlow, hhigh, hk⟩
    · refine ⟨s.draws + (a - s.latched.addr.toNat), Nat.le_add_right _ _, ?_, ?_⟩
      · change _ < s.draws + s.latched.len.toNat + s.raced.length
        omega
      · refine (memRead_memDrawList_other s.raced _ _ a raced).trans ?_
        rw [State.drawRegion_mem, memRead_memDrawRegion, if_pos ⟨low, high⟩]
  · refine (memRead_memDrawList_other s.raced _ _ a ha).trans ?_
    rw [State.drawRegion_mem, memRead_memDrawRegion, if_neg outside]

end Sys2Proof.Machine
